-- ==== Sys2Proof/Word.lean ====
section
/-! DEFINITION. The word types of the machine and of its instruction fields (spec 00_scope.md R5, R6; 30_encoding.md R51). -/

namespace Sys2Proof

/-- A register, the program counter and the descriptor's fields are 64 bits wide (R10, R13, R17). -/
abbrev Word := BitVec 64

/-- A byte of the input or of data memory (R19, R51). -/
abbrev Byte := BitVec 8

/-- A `dst` or `src` field: 4 bits, of which the values 11 to 15 name no register (R12, R51). -/
abbrev RegField := BitVec 4

/-- The `offset` field: 16 bits, read as signed (R56). -/
abbrev Offset := BitVec 16

/-- An `imm` field: 32 bits, read as signed wherever it is an operand (R55). -/
abbrev Imm := BitVec 32

/-- An index of the register file, 0 to 10 (R10). -/
abbrev RegIdx := Fin 11

end Sys2Proof
end

