-- ==== Sys2Proof/Config.lean ====
section
/-! DEFINITION. What an implementation fixes and the default parameters of a run (spec 00_scope.md R5, R9). The core leaves no value
free: every open point of its source is closed by a numbered rule, and the one that stays open, LINK_REG, is a parameter of the run
held in State. -/

namespace Sys2Proof.Config

/-- The default data memory capacity in bytes (R5: "default 65536"). -/
def defaultMemCap : Nat := 65536

/-- The bound of the spec on MEM_CAP and on N (R5; 92_eei_decisions.md D20, D24). -/
def sizeBound : Nat := 2 ^ 62

/-- What a byte of data memory reads as when no entry is listed for it: 0x00, its reset value (10_state.md R25). -/
def unlistedByte : Byte := 0x00#8

/-- The link register of `State.reset` (DESIGN CHOICE, log entry 1, unsafe): R5 leaves LINK_REG open. `launch` takes the register as
an argument, and no statement rests on this value. -/
def resetLinkReg : RegIdx := 0

end Sys2Proof.Config
end

