-- ==== Sys2Proof/Syntax.lean ====
section
/-! DEFINITION. The syntax: the instruction record of a slot (spec 30_encoding.md R51) and `Instr`, one constructor for each of the
64 rows of the opcode map (R58), carrying the fields the instruction uses and no others (R61). -/

namespace Sys2Proof

/-- The decoded five fields of one 8-byte slot (R51). -/
structure Record where
  /-- "8-bit operation selector" -/
  opcode : Byte
  /-- low nibble of byte 1 -/
  dst : RegField
  /-- high nibble of byte 1 -/
  src : RegField
  /-- bytes 2 and 3 -/
  offset : Offset
  /-- bytes 4 to 7 -/
  imm : Imm
deriving DecidableEq, Repr

/-- The core instruction set. A register field is kept as its 4 bits, since a value of 11 to 15 decodes and raises InvalidRegister only
when the instruction executes (R12, R53). `lddw` carries the `imm` of its own slot and, where the next slot exists, that slot's `imm`
(R62). -/
inductive Instr where
  /-- ADD_IMM (R88) -/
  | addImm (dst : RegField) (imm : Imm)
  /-- ADD_REG (R89) -/
  | addReg (dst : RegField) (src : RegField)
  /-- SUB_IMM (R90) -/
  | subImm (dst : RegField) (imm : Imm)
  /-- SUB_REG (R91) -/
  | subReg (dst : RegField) (src : RegField)
  /-- MUL_IMM (R92) -/
  | mulImm (dst : RegField) (imm : Imm)
  /-- MUL_REG (R93) -/
  | mulReg (dst : RegField) (src : RegField)
  /-- DIV_IMM (R94) -/
  | divImm (dst : RegField) (imm : Imm)
  /-- DIV_REG (R95) -/
  | divReg (dst : RegField) (src : RegField)
  /-- OR_IMM (R96) -/
  | orImm (dst : RegField) (imm : Imm)
  /-- OR_REG (R97) -/
  | orReg (dst : RegField) (src : RegField)
  /-- AND_IMM (R98) -/
  | andImm (dst : RegField) (imm : Imm)
  /-- AND_REG (R99) -/
  | andReg (dst : RegField) (src : RegField)
  /-- LSH_IMM (R100) -/
  | lshImm (dst : RegField) (imm : Imm)
  /-- LSH_REG (R101) -/
  | lshReg (dst : RegField) (src : RegField)
  /-- RSH_IMM (R102) -/
  | rshImm (dst : RegField) (imm : Imm)
  /-- RSH_REG (R103) -/
  | rshReg (dst : RegField) (src : RegField)
  /-- NEG_IMM (R104) -/
  | negImm (dst : RegField)
  /-- NEG_REG (R105) -/
  | negReg (dst : RegField)
  /-- MOD_IMM (R106) -/
  | modImm (dst : RegField) (imm : Imm)
  /-- MOD_REG (R107) -/
  | modReg (dst : RegField) (src : RegField)
  /-- XOR_IMM (R108) -/
  | xorImm (dst : RegField) (imm : Imm)
  /-- XOR_REG (R109) -/
  | xorReg (dst : RegField) (src : RegField)
  /-- MOV_IMM (R110) -/
  | movImm (dst : RegField) (imm : Imm)
  /-- MOV_REG (R111) -/
  | movReg (dst : RegField) (src : RegField)
  /-- ARSH_IMM (R112) -/
  | arshImm (dst : RegField) (imm : Imm)
  /-- ARSH_REG (R113) -/
  | arshReg (dst : RegField) (src : RegField)
  /-- LDDW (R122) -/
  | lddw (dst : RegField) (lo : Imm) (hi : Option Imm)
  /-- LDXW (R123) -/
  | ldxw (dst : RegField) (src : RegField) (offset : Offset)
  /-- LDXH (R124) -/
  | ldxh (dst : RegField) (src : RegField) (offset : Offset)
  /-- LDXB (R125) -/
  | ldxb (dst : RegField) (src : RegField) (offset : Offset)
  /-- LDXDW (R126) -/
  | ldxdw (dst : RegField) (src : RegField) (offset : Offset)
  /-- STW (R127) -/
  | stw (dst : RegField) (offset : Offset) (imm : Imm)
  /-- STH (R128) -/
  | sth (dst : RegField) (offset : Offset) (imm : Imm)
  /-- STB (R129) -/
  | stb (dst : RegField) (offset : Offset) (imm : Imm)
  /-- STDW (R130) -/
  | stdw (dst : RegField) (offset : Offset) (imm : Imm)
  /-- STXW (R131) -/
  | stxw (dst : RegField) (src : RegField) (offset : Offset)
  /-- STXH (R132) -/
  | stxh (dst : RegField) (src : RegField) (offset : Offset)
  /-- STXB (R133) -/
  | stxb (dst : RegField) (src : RegField) (offset : Offset)
  /-- STXDW (R134) -/
  | stxdw (dst : RegField) (src : RegField) (offset : Offset)
  /-- JA (R142) -/
  | ja (offset : Offset)
  /-- JEQ_IMM (R143) -/
  | jeqImm (dst : RegField) (imm : Imm) (offset : Offset)
  /-- JEQ_REG (R144) -/
  | jeqReg (dst : RegField) (src : RegField) (offset : Offset)
  /-- JGT_IMM (R145) -/
  | jgtImm (dst : RegField) (imm : Imm) (offset : Offset)
  /-- JGT_REG (R146) -/
  | jgtReg (dst : RegField) (src : RegField) (offset : Offset)
  /-- JGE_IMM (R147) -/
  | jgeImm (dst : RegField) (imm : Imm) (offset : Offset)
  /-- JGE_REG (R148) -/
  | jgeReg (dst : RegField) (src : RegField) (offset : Offset)
  /-- JSET_IMM (R149) -/
  | jsetImm (dst : RegField) (imm : Imm) (offset : Offset)
  /-- JSET_REG (R150) -/
  | jsetReg (dst : RegField) (src : RegField) (offset : Offset)
  /-- JNE_IMM (R151) -/
  | jneImm (dst : RegField) (imm : Imm) (offset : Offset)
  /-- JNE_REG (R152) -/
  | jneReg (dst : RegField) (src : RegField) (offset : Offset)
  /-- JSGT_IMM (R153) -/
  | jsgtImm (dst : RegField) (imm : Imm) (offset : Offset)
  /-- JSGT_REG (R154) -/
  | jsgtReg (dst : RegField) (src : RegField) (offset : Offset)
  /-- JSGE_IMM (R155) -/
  | jsgeImm (dst : RegField) (imm : Imm) (offset : Offset)
  /-- JSGE_REG (R156) -/
  | jsgeReg (dst : RegField) (src : RegField) (offset : Offset)
  /-- JLT_IMM (R157) -/
  | jltImm (dst : RegField) (imm : Imm) (offset : Offset)
  /-- JLT_REG (R158) -/
  | jltReg (dst : RegField) (src : RegField) (offset : Offset)
  /-- JLE_IMM (R159) -/
  | jleImm (dst : RegField) (imm : Imm) (offset : Offset)
  /-- JLE_REG (R160) -/
  | jleReg (dst : RegField) (src : RegField) (offset : Offset)
  /-- JSLT_IMM (R161) -/
  | jsltImm (dst : RegField) (imm : Imm) (offset : Offset)
  /-- JSLT_REG (R162) -/
  | jsltReg (dst : RegField) (src : RegField) (offset : Offset)
  /-- JSLE_IMM (R163) -/
  | jsleImm (dst : RegField) (imm : Imm) (offset : Offset)
  /-- JSLE_REG (R164) -/
  | jsleReg (dst : RegField) (src : RegField) (offset : Offset)
  /-- CALL (R170) -/
  | call (offset : Offset)
  /-- EXIT (R171) -/
  | exit
deriving DecidableEq, Repr

/-- The `dst` field, where the instruction uses it (its "Operands" line; R61). -/
def Instr.dst? : Instr → Option RegField
  | .addImm x _ => some x
  | .addReg x _ => some x
  | .subImm x _ => some x
  | .subReg x _ => some x
  | .mulImm x _ => some x
  | .mulReg x _ => some x
  | .divImm x _ => some x
  | .divReg x _ => some x
  | .orImm x _ => some x
  | .orReg x _ => some x
  | .andImm x _ => some x
  | .andReg x _ => some x
  | .lshImm x _ => some x
  | .lshReg x _ => some x
  | .rshImm x _ => some x
  | .rshReg x _ => some x
  | .negImm x => some x
  | .negReg x => some x
  | .modImm x _ => some x
  | .modReg x _ => some x
  | .xorImm x _ => some x
  | .xorReg x _ => some x
  | .movImm x _ => some x
  | .movReg x _ => some x
  | .arshImm x _ => some x
  | .arshReg x _ => some x
  | .lddw x _ _ => some x
  | .ldxw x _ _ => some x
  | .ldxh x _ _ => some x
  | .ldxb x _ _ => some x
  | .ldxdw x _ _ => some x
  | .stw x _ _ => some x
  | .sth x _ _ => some x
  | .stb x _ _ => some x
  | .stdw x _ _ => some x
  | .stxw x _ _ => some x
  | .stxh x _ _ => some x
  | .stxb x _ _ => some x
  | .stxdw x _ _ => some x
  | .ja _ => none
  | .jeqImm x _ _ => some x
  | .jeqReg x _ _ => some x
  | .jgtImm x _ _ => some x
  | .jgtReg x _ _ => some x
  | .jgeImm x _ _ => some x
  | .jgeReg x _ _ => some x
  | .jsetImm x _ _ => some x
  | .jsetReg x _ _ => some x
  | .jneImm x _ _ => some x
  | .jneReg x _ _ => some x
  | .jsgtImm x _ _ => some x
  | .jsgtReg x _ _ => some x
  | .jsgeImm x _ _ => some x
  | .jsgeReg x _ _ => some x
  | .jltImm x _ _ => some x
  | .jltReg x _ _ => some x
  | .jleImm x _ _ => some x
  | .jleReg x _ _ => some x
  | .jsltImm x _ _ => some x
  | .jsltReg x _ _ => some x
  | .jsleImm x _ _ => some x
  | .jsleReg x _ _ => some x
  | .call _ => none
  | .exit => none

/-- The `src` field, where the instruction uses it. -/
def Instr.src? : Instr → Option RegField
  | .addImm _ _ => none
  | .addReg _ x => some x
  | .subImm _ _ => none
  | .subReg _ x => some x
  | .mulImm _ _ => none
  | .mulReg _ x => some x
  | .divImm _ _ => none
  | .divReg _ x => some x
  | .orImm _ _ => none
  | .orReg _ x => some x
  | .andImm _ _ => none
  | .andReg _ x => some x
  | .lshImm _ _ => none
  | .lshReg _ x => some x
  | .rshImm _ _ => none
  | .rshReg _ x => some x
  | .negImm _ => none
  | .negReg _ => none
  | .modImm _ _ => none
  | .modReg _ x => some x
  | .xorImm _ _ => none
  | .xorReg _ x => some x
  | .movImm _ _ => none
  | .movReg _ x => some x
  | .arshImm _ _ => none
  | .arshReg _ x => some x
  | .lddw _ _ _ => none
  | .ldxw _ x _ => some x
  | .ldxh _ x _ => some x
  | .ldxb _ x _ => some x
  | .ldxdw _ x _ => some x
  | .stw _ _ _ => none
  | .sth _ _ _ => none
  | .stb _ _ _ => none
  | .stdw _ _ _ => none
  | .stxw _ x _ => some x
  | .stxh _ x _ => some x
  | .stxb _ x _ => some x
  | .stxdw _ x _ => some x
  | .ja _ => none
  | .jeqImm _ _ _ => none
  | .jeqReg _ x _ => some x
  | .jgtImm _ _ _ => none
  | .jgtReg _ x _ => some x
  | .jgeImm _ _ _ => none
  | .jgeReg _ x _ => some x
  | .jsetImm _ _ _ => none
  | .jsetReg _ x _ => some x
  | .jneImm _ _ _ => none
  | .jneReg _ x _ => some x
  | .jsgtImm _ _ _ => none
  | .jsgtReg _ x _ => some x
  | .jsgeImm _ _ _ => none
  | .jsgeReg _ x _ => some x
  | .jltImm _ _ _ => none
  | .jltReg _ x _ => some x
  | .jleImm _ _ _ => none
  | .jleReg _ x _ => some x
  | .jsltImm _ _ _ => none
  | .jsltReg _ x _ => some x
  | .jsleImm _ _ _ => none
  | .jsleReg _ x _ => some x
  | .call _ => none
  | .exit => none

/-- The `offset` field, where the instruction uses it. -/
def Instr.offset? : Instr → Option Offset
  | .addImm _ _ => none
  | .addReg _ _ => none
  | .subImm _ _ => none
  | .subReg _ _ => none
  | .mulImm _ _ => none
  | .mulReg _ _ => none
  | .divImm _ _ => none
  | .divReg _ _ => none
  | .orImm _ _ => none
  | .orReg _ _ => none
  | .andImm _ _ => none
  | .andReg _ _ => none
  | .lshImm _ _ => none
  | .lshReg _ _ => none
  | .rshImm _ _ => none
  | .rshReg _ _ => none
  | .negImm _ => none
  | .negReg _ => none
  | .modImm _ _ => none
  | .modReg _ _ => none
  | .xorImm _ _ => none
  | .xorReg _ _ => none
  | .movImm _ _ => none
  | .movReg _ _ => none
  | .arshImm _ _ => none
  | .arshReg _ _ => none
  | .lddw _ _ _ => none
  | .ldxw _ _ x => some x
  | .ldxh _ _ x => some x
  | .ldxb _ _ x => some x
  | .ldxdw _ _ x => some x
  | .stw _ x _ => some x
  | .sth _ x _ => some x
  | .stb _ x _ => some x
  | .stdw _ x _ => some x
  | .stxw _ _ x => some x
  | .stxh _ _ x => some x
  | .stxb _ _ x => some x
  | .stxdw _ _ x => some x
  | .ja x => some x
  | .jeqImm _ _ x => some x
  | .jeqReg _ _ x => some x
  | .jgtImm _ _ x => some x
  | .jgtReg _ _ x => some x
  | .jgeImm _ _ x => some x
  | .jgeReg _ _ x => some x
  | .jsetImm _ _ x => some x
  | .jsetReg _ _ x => some x
  | .jneImm _ _ x => some x
  | .jneReg _ _ x => some x
  | .jsgtImm _ _ x => some x
  | .jsgtReg _ _ x => some x
  | .jsgeImm _ _ x => some x
  | .jsgeReg _ _ x => some x
  | .jltImm _ _ x => some x
  | .jltReg _ _ x => some x
  | .jleImm _ _ x => some x
  | .jleReg _ _ x => some x
  | .jsltImm _ _ x => some x
  | .jsltReg _ _ x => some x
  | .jsleImm _ _ x => some x
  | .jsleReg _ _ x => some x
  | .call x => some x
  | .exit => none

/-- The `imm` field of the instruction's own slot, where the instruction uses it. -/
def Instr.imm? : Instr → Option Imm
  | .addImm _ x => some x
  | .addReg _ _ => none
  | .subImm _ x => some x
  | .subReg _ _ => none
  | .mulImm _ x => some x
  | .mulReg _ _ => none
  | .divImm _ x => some x
  | .divReg _ _ => none
  | .orImm _ x => some x
  | .orReg _ _ => none
  | .andImm _ x => some x
  | .andReg _ _ => none
  | .lshImm _ x => some x
  | .lshReg _ _ => none
  | .rshImm _ x => some x
  | .rshReg _ _ => none
  | .negImm _ => none
  | .negReg _ => none
  | .modImm _ x => some x
  | .modReg _ _ => none
  | .xorImm _ x => some x
  | .xorReg _ _ => none
  | .movImm _ x => some x
  | .movReg _ _ => none
  | .arshImm _ x => some x
  | .arshReg _ _ => none
  | .lddw _ x _ => some x
  | .ldxw _ _ _ => none
  | .ldxh _ _ _ => none
  | .ldxb _ _ _ => none
  | .ldxdw _ _ _ => none
  | .stw _ _ x => some x
  | .sth _ _ x => some x
  | .stb _ _ x => some x
  | .stdw _ _ x => some x
  | .stxw _ _ _ => none
  | .stxh _ _ _ => none
  | .stxb _ _ _ => none
  | .stxdw _ _ _ => none
  | .ja _ => none
  | .jeqImm _ x _ => some x
  | .jeqReg _ _ _ => none
  | .jgtImm _ x _ => some x
  | .jgtReg _ _ _ => none
  | .jgeImm _ x _ => some x
  | .jgeReg _ _ _ => none
  | .jsetImm _ x _ => some x
  | .jsetReg _ _ _ => none
  | .jneImm _ x _ => some x
  | .jneReg _ _ _ => none
  | .jsgtImm _ x _ => some x
  | .jsgtReg _ _ _ => none
  | .jsgeImm _ x _ => some x
  | .jsgeReg _ _ _ => none
  | .jltImm _ x _ => some x
  | .jltReg _ _ _ => none
  | .jleImm _ x _ => some x
  | .jleReg _ _ _ => none
  | .jsltImm _ x _ => some x
  | .jsltReg _ _ _ => none
  | .jsleImm _ x _ => some x
  | .jsleReg _ _ _ => none
  | .call _ => none
  | .exit => none

/-- The `imm` field of the next slot, where the instruction uses it and the slot exists: LDDW alone (R62). -/
def Instr.nextImm? : Instr → Option Imm
  | .addImm _ _ => none
  | .addReg _ _ => none
  | .subImm _ _ => none
  | .subReg _ _ => none
  | .mulImm _ _ => none
  | .mulReg _ _ => none
  | .divImm _ _ => none
  | .divReg _ _ => none
  | .orImm _ _ => none
  | .orReg _ _ => none
  | .andImm _ _ => none
  | .andReg _ _ => none
  | .lshImm _ _ => none
  | .lshReg _ _ => none
  | .rshImm _ _ => none
  | .rshReg _ _ => none
  | .negImm _ => none
  | .negReg _ => none
  | .modImm _ _ => none
  | .modReg _ _ => none
  | .xorImm _ _ => none
  | .xorReg _ _ => none
  | .movImm _ _ => none
  | .movReg _ _ => none
  | .arshImm _ _ => none
  | .arshReg _ _ => none
  | .lddw _ _ x => x
  | .ldxw _ _ _ => none
  | .ldxh _ _ _ => none
  | .ldxb _ _ _ => none
  | .ldxdw _ _ _ => none
  | .stw _ _ _ => none
  | .sth _ _ _ => none
  | .stb _ _ _ => none
  | .stdw _ _ _ => none
  | .stxw _ _ _ => none
  | .stxh _ _ _ => none
  | .stxb _ _ _ => none
  | .stxdw _ _ _ => none
  | .ja _ => none
  | .jeqImm _ _ _ => none
  | .jeqReg _ _ _ => none
  | .jgtImm _ _ _ => none
  | .jgtReg _ _ _ => none
  | .jgeImm _ _ _ => none
  | .jgeReg _ _ _ => none
  | .jsetImm _ _ _ => none
  | .jsetReg _ _ _ => none
  | .jneImm _ _ _ => none
  | .jneReg _ _ _ => none
  | .jsgtImm _ _ _ => none
  | .jsgtReg _ _ _ => none
  | .jsgeImm _ _ _ => none
  | .jsgeReg _ _ _ => none
  | .jltImm _ _ _ => none
  | .jltReg _ _ _ => none
  | .jleImm _ _ _ => none
  | .jleReg _ _ _ => none
  | .jsltImm _ _ _ => none
  | .jsltReg _ _ _ => none
  | .jsleImm _ _ _ => none
  | .jsleReg _ _ _ => none
  | .call _ => none
  | .exit => none

end Sys2Proof
end

