-- ==== Sys2Proof/Machine/State.lean ====
section
/-! DEFINITION. The state of the machine (spec 10_state.md R10 to R26 and the parameters of a run, 00_scope.md R9), its reset value,
and the reasons a step can answer no next state. -/

namespace Sys2Proof.Machine

/-- The three states of the fetch-execute-terminate machine (R16). -/
inductive RunStatus where
  | running
  | terminated
  | faulted
deriving DecidableEq, Repr

/-- The fault kinds (60_exceptions.md R180). -/
inductive FaultKind where
  /-- no fault has occurred -/
  | noFault
  | malformedInput
  | unknownOpcode
  | programCounterOutOfRange
  | memoryAccessOutOfBounds
  | divisionByZero
  | invalidRegister
deriving DecidableEq, Repr

/-- Data memory as the list of its bytes that differ from `Config.unlistedByte`, addresses strictly rising. -/
abbrev Memory := List Host.Cell

/-- The machine state (R10 to R19, summary table of 10_state.md section 9) with the parameters of the run (R9). -/
structure State where
  /-- `x[0]` to `x[10]` (R10) -/
  regs : Vector Word 11
  /-- the program counter, an instruction index read as signed (R13) -/
  pc : Word
  /-- the run status (R16) -/
  status : RunStatus
  /-- the fault descriptor's kind (R17) -/
  faultKind : FaultKind
  /-- the fault descriptor's instruction index, read as signed (R17) -/
  faultIndex : Word
  /-- the fault descriptor's information (R17) -/
  faultInfo : Word
  /-- data memory (R19) -/
  mem : Memory
  /-- the program store, `insn[0]` to `insn[N-1]` (R18) -/
  prog : List Record
  /-- MEM_CAP, the capacity of data memory in bytes (R5) -/
  memCap : Nat
  /-- LINK_REG, the register CALL writes (R5, R170) -/
  linkReg : RegIdx
deriving DecidableEq, Repr

/-- Why the machine answers no next state. Every fault of the SPEC (R180) is taken and is a next state with `status = faulted`. -/
inductive Fault where
  /-- Raised by `step` alone, when `status` is TERMINATED or FAULTED: `Step` is "defined only when `status` = RUNNING" (R71) and "no
  further step happens and no state changes until the next launch" (R70). Safe: the model stops where the spec has no step. -/
  | notRunning
deriving DecidableEq, Repr

/-- Why an instruction has no meaning. -/
inductive Refusal where
  /-- Raised by an arm of `exec` whose instruction has no meaning in this model; no arm does. Safe: the model stops. -/
  | notModelled (mnemonic : String)
deriving DecidableEq, Repr

/-- The machine right after reset (R22 to R25, 70_reset_and_hazards.md R200), with the default capacity (R5), no program supplied
(log entry 2) and the link register of log entry 1. -/
def State.reset : State where
  regs := Vector.replicate 11 0#64
  pc := 0#64
  status := .running
  faultKind := .noFault
  faultIndex := 0#64
  faultInfo := 0#64
  mem := []
  prog := []
  memCap := Config.defaultMemCap
  linkReg := Config.resetLinkReg

end Sys2Proof.Machine
end

