-- ==== Sys2Proof/Machine/Ops.lean ====
section
/-! DEFINITION. The named operations over registers, program counter, status, faults, program store and data memory (spec 10_state.md,
20_memory.md, 60_exceptions.md). Taking a fault is one operation, `State.raise` (R186). There is no return from a fault beside it:
"There is no trap-return instruction and no nesting" (R187). -/

namespace Sys2Proof.Machine

/-- What a step or an instruction answers. -/
abbrev Result := Host.Outcome State Fault Refusal

/-! Registers, program counter and status. -/

/-- `x[i]` (R10). -/
def State.reg (s : State) (r : RegIdx) : Word := s.regs[r]

/-- `x[i] <- v` (R10); no register is hardwired (R11). -/
def State.setReg (s : State) (r : RegIdx) (v : Word) : State := { s with regs := s.regs.set r v }

/-- `pc <- t` (R13). -/
def State.setPc (s : State) (t : Word) : State := { s with pc := t }

/-- The state with its data memory replaced. -/
def State.setMem (s : State) (m : Memory) : State := { s with mem := m }

/-- `pc <- pc + 1` (R14, R73). -/
def State.advance (s : State) : State := s.setPc (s.pc + 1#64)

/-- `status <- TERMINATED` (R171). -/
def State.terminate (s : State) : State := { s with status := .terminated }

/-- The register a field names, none for 11 to 15 (R12). -/
def regIdx? (f : RegField) : Option RegIdx :=
  if h : f.toNat < 11 then some ⟨f.toNat, h⟩ else none

/-! Faults. -/

/-- Fault entry with the index to report given (R181, R186). -/
def State.raiseAt (s : State) (kind : FaultKind) (index info : Word) : State :=
  { s with faultKind := kind, faultIndex := index, faultInfo := info, status := .faulted }

/-- `raise K(info)`: the fault entry of R186. Registers, memory and pc are left as they were (R185). -/
def State.raise (s : State) (kind : FaultKind) (info : Word) : State := s.raiseAt kind s.pc info

/-- The numeric code of a fault kind (R180). -/
def faultKindCode : FaultKind → Nat
  | .noFault => 0
  | .malformedInput => 1
  | .unknownOpcode => 2
  | .programCounterOutOfRange => 3
  | .memoryAccessOutOfBounds => 4
  | .divisionByZero => 5
  | .invalidRegister => 6

/-- The numeric code of a run status (R16). -/
def statusCode : RunStatus → Nat
  | .running => 0
  | .terminated => 1
  | .faulted => 2

/-! Program store. -/

/-- `insn[k]` for an integer `k`, none outside `0 <= k < N` (R18, R71). -/
def State.insnAt (s : State) (k : Int) : Option Record :=
  if k < 0 then none else s.prog[k.toNat]?

/-- A program store with `r` at index `k`; slots that a shorter store lacks before `k` are zero. -/
def storeSlot : List Record → Nat → Record → List Record
  | [], 0, r => [r]
  | [], k + 1, r => { opcode := 0, dst := 0, src := 0, offset := 0, imm := 0 } :: storeSlot [] k r
  | _ :: rest, 0, r => r :: rest
  | q :: rest, k + 1, r => q :: storeSlot rest k r

/-! Data memory. -/

/-- The byte at an address; an unlisted address reads as its reset value (R25, R41). -/
def Memory.read : Memory → Nat → Byte
  | [], _ => Config.unlistedByte
  | (k, b) :: rest, a => if a = k then b else Memory.read rest a

/-- A byte in front of a memory whose addresses lie above it, listed only where it differs from what an unlisted address reads as. -/
def Memory.cons (a : Nat) (b : Byte) (m : Memory) : Memory :=
  if b = Config.unlistedByte then m else (a, b) :: m

/-- Write one byte, keeping the canonical form. -/
def Memory.write : Memory → Nat → Byte → Memory
  | [], a, b => Memory.cons a b []
  | (k, c) :: rest, a, b =>
    if a < k then Memory.cons a b ((k, c) :: rest)
    else if a = k then Memory.cons a b rest
    else (k, c) :: Memory.write rest a b

/-- `mem[a+n-1] ++ … ++ mem[a+1] ++ mem[a]` (R33). -/
def Memory.readBytes (m : Memory) : (a n : Nat) → BitVec (8 * n)
  | _, 0 => 0#0
  | a, n + 1 => m.readBytes (a + 1) n ++ m.read a

/-- `for k in 0 .. n-1: mem[a+k] <- v[8k+7:8k]` (R34). -/
def Memory.writeBytes (m : Memory) (a : Nat) : Nat → {w : Nat} → BitVec w → Memory
  | 0, _, _ => m
  | n + 1, _, v => (m.writeBytes a n v).write (a + n) (v.extractLsb' (8 * n) 8)

/-- Every listed address is at least `lo`, addresses rise strictly, and no entry equals what an unlisted address reads as. -/
def Memory.wfFrom : Nat → Memory → Bool
  | _, [] => true
  | lo, (k, b) :: rest => decide (lo ≤ k) && decide (b ≠ Config.unlistedByte) && Memory.wfFrom (k + 1) rest

/-- The canonical form of data memory. -/
def Memory.wf (m : Memory) : Bool := Memory.wfFrom 0 m

/-- The bounds check: an access of `n` bytes at `ea` "is admitted exactly when 0 <= ea and ea + n <= MEM_CAP, with ea and the sum taken
as unbounded integers" (R35). -/
def State.inBounds (s : State) (ea : Int) (n : Nat) : Bool :=
  decide (0 ≤ ea) && decide (ea + n ≤ s.memCap)

/-- `MemRead(ea, n)` (R33); `k` says what the instruction does with the value. -/
def State.memRead (s : State) (ea : Int) (n : Nat) (k : BitVec (8 * n) → Result) : Result :=
  if s.inBounds ea n then k (s.mem.readBytes ea.toNat n)
  else .next (s.raise .memoryAccessOutOfBounds 0#64)

/-- `MemWrite(ea, n, v)` (R34): the check precedes every byte write. -/
def State.memWrite (s : State) (ea : Int) (n : Nat) (v : BitVec (8 * n)) (k : State → Result) : Result :=
  if s.inBounds ea n then k (s.setMem (s.mem.writeBytes ea.toNat n v))
  else .next (s.raise .memoryAccessOutOfBounds 0#64)

end Sys2Proof.Machine
end

