-- ==== Sys2Proof/Machine/Operands.lean ====
section
/-! DEFINITION. The operand forms: checked register fields (spec 10_state.md R12), the sign-extended immediate (30_encoding.md R55), the
signed offset (R56), `Operand2` (41_alu.md R85) and the effective address (20_memory.md R35, 42_load_store.md R120). -/

namespace Sys2Proof.Machine

/-- `Reg(f)` (R12): go on with the register `f` names, or raise InvalidRegister with the field's value. -/
def State.withReg (s : State) (f : RegField) (k : RegIdx → Result) : Result :=
  match regIdx? f with
  | some r => k r
  | none => .next (s.raise .invalidRegister (f.setWidth 64))

/-- `dst` is checked before `src` (R12, R72). -/
def State.withRegs (s : State) (dst src : RegField) (k : RegIdx → RegIdx → Result) : Result :=
  s.withReg dst fun d => s.withReg src fun r => k d r

/-- `sext_64(imm)`, the immediate as a 64-bit operand (R55). -/
def immOperand (imm : Imm) : Word := imm.signExtend 64

/-- The target of a taken control transfer, `pc + signed(offset)`, nothing more being added (43_branch.md R140). -/
def State.target (s : State) (offset : Offset) : Word := s.pc + offset.signExtend 64

/-- `ea = signed(x[base]) + signed(offset)`, an integer, not wrapped (R35, R120). -/
def State.effectiveAddress (s : State) (base : RegIdx) (offset : Offset) : Int :=
  (s.reg base).toInt + offset.toInt

end Sys2Proof.Machine
end

