-- ==== Sys2Proof/Machine/Flags.lean ====
section
/-! DEFINITION. "The core has no status flags, no condition codes and no predicate registers" (spec 10_state.md R15), so no flag is
computed here. What decides a conditional jump are the eleven predicates of 43_branch.md R141, over the two operands. -/

namespace Sys2Proof.Machine

/-- JEQ: `a = b` (R141). -/
def condEq (a b : Word) : Bool := a == b

/-- JNE: `a != b` (R141). -/
def condNe (a b : Word) : Bool := a != b

/-- JGT: `unsigned(a) > unsigned(b)` (R141). -/
def condGt (a b : Word) : Bool := decide (a.toNat > b.toNat)

/-- JGE: `unsigned(a) >= unsigned(b)` (R141). -/
def condGe (a b : Word) : Bool := decide (a.toNat ≥ b.toNat)

/-- JLT: `unsigned(a) < unsigned(b)` (R141). -/
def condLt (a b : Word) : Bool := decide (a.toNat < b.toNat)

/-- JLE: `unsigned(a) <= unsigned(b)` (R141). -/
def condLe (a b : Word) : Bool := decide (a.toNat ≤ b.toNat)

/-- JSET: `(a & b) != 0` (R141). -/
def condSet (a b : Word) : Bool := (a &&& b) != 0#64

/-- JSGT: `signed(a) > signed(b)` (R141). -/
def condSgt (a b : Word) : Bool := decide (a.toInt > b.toInt)

/-- JSGE: `signed(a) >= signed(b)` (R141). -/
def condSge (a b : Word) : Bool := decide (a.toInt ≥ b.toInt)

/-- JSLT: `signed(a) < signed(b)` (R141). -/
def condSlt (a b : Word) : Bool := decide (a.toInt < b.toInt)

/-- JSLE: `signed(a) <= signed(b)` (R141). -/
def condSle (a b : Word) : Bool := decide (a.toInt ≤ b.toInt)

end Sys2Proof.Machine
end

