-- ==== Sys2Proof/Machine/AluOps.lean ====
section
/-! DEFINITION. The results of the ALU operations on two 64-bit vectors (spec 41_alu.md R86 to R114) and the skeleton the instructions
share (R86). Sums, differences, products, quotients and remainders are computed as exact integers and narrowed by `trunc_64` at the
end. -/

namespace Sys2Proof.Machine

/-- `trunc_64(signed(a) + signed(b))` (R88, R89). -/
def aluAdd (a b : Word) : Word := BitVec.ofInt 64 (a.toInt + b.toInt)

/-- `trunc_64(signed(a) - signed(b))` (R90, R91). -/
def aluSub (a b : Word) : Word := BitVec.ofInt 64 (a.toInt - b.toInt)

/-- `trunc_64(signed(a) * signed(b))` (R92, R93). -/
def aluMul (a b : Word) : Word := BitVec.ofInt 64 (a.toInt * b.toInt)

/-- `trunc_64(signed(a) div signed(b))`, the quotient rounded toward zero (R94, R95). -/
def aluDiv (a b : Word) : Word := BitVec.ofInt 64 (a.toInt.tdiv b.toInt)

/-- `trunc_64(signed(a) rem signed(b))`, `a rem b = a - b * (a div b)` (R106, R107). -/
def aluMod (a b : Word) : Word := BitVec.ofInt 64 (a.toInt.tmod b.toInt)

/-- `a | b` (R96, R97). -/
def aluOr (a b : Word) : Word := a ||| b

/-- `a & b` (R98, R99). -/
def aluAnd (a b : Word) : Word := a &&& b

/-- `a ^ b` (R108, R109). -/
def aluXor (a b : Word) : Word := a ^^^ b

/-- `Lsh(a, unsigned(b))`; the count is not masked (R87). -/
def aluLsh (a b : Word) : Word := if b.toNat ≤ 63 then a <<< b.toNat else 0#64

/-- `Rsh(a, unsigned(b))`, logical (R87, R102). -/
def aluRsh (a b : Word) : Word := if b.toNat ≤ 63 then a >>> b.toNat else 0#64

/-- `Arsh(a, unsigned(b))`, copies of bit 63 entering at the top (R87, R112). -/
def aluArsh (a b : Word) : Word :=
  if b.toNat ≤ 63 then a.sshiftRight b.toNat else if a.msb then 0xFFFFFFFFFFFFFFFF#64 else 0#64

/-- The second operand itself: MOV does not read the first (R110, R111). -/
def aluMov (_a b : Word) : Word := b

/-- `trunc_64(0 - signed(a))` (R104, R105). -/
def aluNeg (a : Word) : Word := BitVec.ofInt 64 (0 - a.toInt)

/-- `x[d] <- v; pc <- pc + 1`, the end of every instruction that writes a register and does not jump (R86). -/
def State.finish (s : State) (d : RegIdx) (v : Word) : Result := .next (s.setReg d v).advance

/-- The skeleton of an immediate form (R86). -/
def State.aluImm (s : State) (dst : RegField) (imm : Imm) (f : Word → Word → Word) : Result :=
  s.withReg dst fun d => s.finish d (f (s.reg d) (immOperand imm))

/-- The skeleton of a register form (R86); both operands are read before the write. -/
def State.aluReg (s : State) (dst src : RegField) (f : Word → Word → Word) : Result :=
  s.withRegs dst src fun d r => s.finish d (f (s.reg d) (s.reg r))

/-- The skeleton of the unary operation, NEG: the `src` field is neither read nor checked (R104, R105). -/
def State.aluUnary (s : State) (dst : RegField) (f : Word → Word) : Result :=
  s.withReg dst fun d => s.finish d (f (s.reg d))

/-- The operation-specific check of DIV and MOD (R86): raise DivisionByZero on a zero divisor, else write `f` of the operands. -/
def State.divide (s : State) (d : RegIdx) (b : Word) (f : Word → Word → Word) : Result :=
  if b = 0#64 then .next (s.raise .divisionByZero 0#64) else s.finish d (f (s.reg d) b)

end Sys2Proof.Machine
end

