-- ==== Sys2Proof/Machine/Alu.lean ====
section
/-! DEFINITION. The 26 arithmetic and logic instructions (spec 41_alu.md), one definition each, over the skeletons of AluOps. -/

namespace Sys2Proof.Machine

/-- ADD_IMM (41_alu.md R88). -/
def execAddImm (dst : RegField) (imm : Imm) (s : State) : Result := s.aluImm dst imm aluAdd

/-- ADD_REG (41_alu.md R89). -/
def execAddReg (dst src : RegField) (s : State) : Result := s.aluReg dst src aluAdd

/-- SUB_IMM (41_alu.md R90). -/
def execSubImm (dst : RegField) (imm : Imm) (s : State) : Result := s.aluImm dst imm aluSub

/-- SUB_REG (41_alu.md R91). -/
def execSubReg (dst src : RegField) (s : State) : Result := s.aluReg dst src aluSub

/-- MUL_IMM (41_alu.md R92). -/
def execMulImm (dst : RegField) (imm : Imm) (s : State) : Result := s.aluImm dst imm aluMul

/-- MUL_REG (41_alu.md R93). -/
def execMulReg (dst src : RegField) (s : State) : Result := s.aluReg dst src aluMul

/-- DIV_IMM (41_alu.md R94). -/
def execDivImm (dst : RegField) (imm : Imm) (s : State) : Result := s.withReg dst fun d => s.divide d (immOperand imm) aluDiv

/-- DIV_REG (41_alu.md R95). -/
def execDivReg (dst src : RegField) (s : State) : Result := s.withRegs dst src fun d r => s.divide d (s.reg r) aluDiv

/-- OR_IMM (41_alu.md R96). -/
def execOrImm (dst : RegField) (imm : Imm) (s : State) : Result := s.aluImm dst imm aluOr

/-- OR_REG (41_alu.md R97). -/
def execOrReg (dst src : RegField) (s : State) : Result := s.aluReg dst src aluOr

/-- AND_IMM (41_alu.md R98). -/
def execAndImm (dst : RegField) (imm : Imm) (s : State) : Result := s.aluImm dst imm aluAnd

/-- AND_REG (41_alu.md R99). -/
def execAndReg (dst src : RegField) (s : State) : Result := s.aluReg dst src aluAnd

/-- LSH_IMM (41_alu.md R100). -/
def execLshImm (dst : RegField) (imm : Imm) (s : State) : Result := s.aluImm dst imm aluLsh

/-- LSH_REG (41_alu.md R101). -/
def execLshReg (dst src : RegField) (s : State) : Result := s.aluReg dst src aluLsh

/-- RSH_IMM (41_alu.md R102). -/
def execRshImm (dst : RegField) (imm : Imm) (s : State) : Result := s.aluImm dst imm aluRsh

/-- RSH_REG (41_alu.md R103). -/
def execRshReg (dst src : RegField) (s : State) : Result := s.aluReg dst src aluRsh

/-- NEG_IMM (41_alu.md R104). -/
def execNegImm (dst : RegField) (s : State) : Result := s.aluUnary dst aluNeg

/-- NEG_REG (41_alu.md R105). -/
def execNegReg (dst : RegField) (s : State) : Result := s.aluUnary dst aluNeg

/-- MOD_IMM (41_alu.md R106). -/
def execModImm (dst : RegField) (imm : Imm) (s : State) : Result := s.withReg dst fun d => s.divide d (immOperand imm) aluMod

/-- MOD_REG (41_alu.md R107). -/
def execModReg (dst src : RegField) (s : State) : Result := s.withRegs dst src fun d r => s.divide d (s.reg r) aluMod

/-- XOR_IMM (41_alu.md R108). -/
def execXorImm (dst : RegField) (imm : Imm) (s : State) : Result := s.aluImm dst imm aluXor

/-- XOR_REG (41_alu.md R109). -/
def execXorReg (dst src : RegField) (s : State) : Result := s.aluReg dst src aluXor

/-- MOV_IMM (41_alu.md R110). -/
def execMovImm (dst : RegField) (imm : Imm) (s : State) : Result := s.aluImm dst imm aluMov

/-- MOV_REG (41_alu.md R111). -/
def execMovReg (dst src : RegField) (s : State) : Result := s.aluReg dst src aluMov

/-- ARSH_IMM (41_alu.md R112). -/
def execArshImm (dst : RegField) (imm : Imm) (s : State) : Result := s.aluImm dst imm aluArsh

/-- ARSH_REG (41_alu.md R113). -/
def execArshReg (dst src : RegField) (s : State) : Result := s.aluReg dst src aluArsh

end Sys2Proof.Machine
end

