-- ==== Sys2Proof/Machine/Branch.lean ====
section
/-! DEFINITION. The 23 jumps (spec 43_branch.md), one definition each. A target is not checked here: an index outside the program faults
at the next fetch (R140). -/

namespace Sys2Proof.Machine

/-- `if P(a, b) then pc <- pc + signed(offset) else pc <- pc + 1` (R141). -/
def State.branch (s : State) (taken : Bool) (offset : Offset) : Result :=
  .next (if taken then s.setPc (s.target offset) else s.advance)

/-- The skeleton of a conditional jump against an immediate (R141). -/
def State.jumpImm (s : State) (dst : RegField) (imm : Imm) (offset : Offset) (p : Word → Word → Bool) : Result :=
  s.withReg dst fun d => s.branch (p (s.reg d) (immOperand imm)) offset

/-- The skeleton of a conditional jump against a register (R141). -/
def State.jumpReg (s : State) (dst src : RegField) (offset : Offset) (p : Word → Word → Bool) : Result :=
  s.withRegs dst src fun d r => s.branch (p (s.reg d) (s.reg r)) offset

/-- JA (43_branch.md R142). -/
def execJa (offset : Offset) (s : State) : Result := .next (s.setPc (s.target offset))

/-- JEQ_IMM (43_branch.md R143). -/
def execJeqImm (dst : RegField) (imm : Imm) (offset : Offset) (s : State) : Result := s.jumpImm dst imm offset condEq

/-- JEQ_REG (43_branch.md R144). -/
def execJeqReg (dst src : RegField) (offset : Offset) (s : State) : Result := s.jumpReg dst src offset condEq

/-- JGT_IMM (43_branch.md R145). -/
def execJgtImm (dst : RegField) (imm : Imm) (offset : Offset) (s : State) : Result := s.jumpImm dst imm offset condGt

/-- JGT_REG (43_branch.md R146). -/
def execJgtReg (dst src : RegField) (offset : Offset) (s : State) : Result := s.jumpReg dst src offset condGt

/-- JGE_IMM (43_branch.md R147). -/
def execJgeImm (dst : RegField) (imm : Imm) (offset : Offset) (s : State) : Result := s.jumpImm dst imm offset condGe

/-- JGE_REG (43_branch.md R148). -/
def execJgeReg (dst src : RegField) (offset : Offset) (s : State) : Result := s.jumpReg dst src offset condGe

/-- JSET_IMM (43_branch.md R149). -/
def execJsetImm (dst : RegField) (imm : Imm) (offset : Offset) (s : State) : Result := s.jumpImm dst imm offset condSet

/-- JSET_REG (43_branch.md R150). -/
def execJsetReg (dst src : RegField) (offset : Offset) (s : State) : Result := s.jumpReg dst src offset condSet

/-- JNE_IMM (43_branch.md R151). -/
def execJneImm (dst : RegField) (imm : Imm) (offset : Offset) (s : State) : Result := s.jumpImm dst imm offset condNe

/-- JNE_REG (43_branch.md R152). -/
def execJneReg (dst src : RegField) (offset : Offset) (s : State) : Result := s.jumpReg dst src offset condNe

/-- JSGT_IMM (43_branch.md R153). -/
def execJsgtImm (dst : RegField) (imm : Imm) (offset : Offset) (s : State) : Result := s.jumpImm dst imm offset condSgt

/-- JSGT_REG (43_branch.md R154). -/
def execJsgtReg (dst src : RegField) (offset : Offset) (s : State) : Result := s.jumpReg dst src offset condSgt

/-- JSGE_IMM (43_branch.md R155). -/
def execJsgeImm (dst : RegField) (imm : Imm) (offset : Offset) (s : State) : Result := s.jumpImm dst imm offset condSge

/-- JSGE_REG (43_branch.md R156). -/
def execJsgeReg (dst src : RegField) (offset : Offset) (s : State) : Result := s.jumpReg dst src offset condSge

/-- JLT_IMM (43_branch.md R157). -/
def execJltImm (dst : RegField) (imm : Imm) (offset : Offset) (s : State) : Result := s.jumpImm dst imm offset condLt

/-- JLT_REG (43_branch.md R158). -/
def execJltReg (dst src : RegField) (offset : Offset) (s : State) : Result := s.jumpReg dst src offset condLt

/-- JLE_IMM (43_branch.md R159). -/
def execJleImm (dst : RegField) (imm : Imm) (offset : Offset) (s : State) : Result := s.jumpImm dst imm offset condLe

/-- JLE_REG (43_branch.md R160). -/
def execJleReg (dst src : RegField) (offset : Offset) (s : State) : Result := s.jumpReg dst src offset condLe

/-- JSLT_IMM (43_branch.md R161). -/
def execJsltImm (dst : RegField) (imm : Imm) (offset : Offset) (s : State) : Result := s.jumpImm dst imm offset condSlt

/-- JSLT_REG (43_branch.md R162). -/
def execJsltReg (dst src : RegField) (offset : Offset) (s : State) : Result := s.jumpReg dst src offset condSlt

/-- JSLE_IMM (43_branch.md R163). -/
def execJsleImm (dst : RegField) (imm : Imm) (offset : Offset) (s : State) : Result := s.jumpImm dst imm offset condSle

/-- JSLE_REG (43_branch.md R164). -/
def execJsleReg (dst src : RegField) (offset : Offset) (s : State) : Result := s.jumpReg dst src offset condSle

end Sys2Proof.Machine
end

