-- ==== Sys2Proof/Machine/CallExit.lean ====
section
/-! DEFINITION. CALL and EXIT (spec 44_call_exit.md). The unknown opcodes of R172 are no instructions: `fetch` raises their fault. -/

namespace Sys2Proof.Machine

/-- CALL (44_call_exit.md R170): `x[LINK_REG] <- trunc_64(pc + 1); pc <- pc + signed(offset)`. -/
def execCall (offset : Offset) (s : State) : Result :=
  .next ((s.setReg s.linkReg (s.pc + 1#64)).setPc (s.target offset))

/-- EXIT (44_call_exit.md R171): `status <- TERMINATED`; pc, registers and memory are unchanged. -/
def execExit (s : State) : Result := .next s.terminate

end Sys2Proof.Machine
end

