-- ==== Sys2Proof/Machine/LoadStore.lean ====
section
/-! DEFINITION. The thirteen load and store instructions (spec 42_load_store.md), one definition each. -/

namespace Sys2Proof.Machine

/-- The skeleton of LDX (R120, R121): read `n` bytes at `x[src] + offset`, widen them, write `x[dst]`. -/
def State.load (s : State) (dst src : RegField) (offset : Offset) (n : Nat) (widen : BitVec (8 * n) → Word) : Result :=
  s.withRegs dst src fun d b => s.memRead (s.effectiveAddress b offset) n fun v => s.finish d (widen v)

/-- The end of a store: `MemWrite(ea, n, v); pc <- pc + 1` (R120, R121). -/
def State.store (s : State) (base : RegIdx) (offset : Offset) (n : Nat) (v : BitVec (8 * n)) : Result :=
  s.memWrite (s.effectiveAddress base offset) n v fun t => .next t.advance

/-- LDDW (42_load_store.md R122): `hi` is the next slot's `imm`, none when the program ends here. The halves are joined with no
extension. -/
def execLddw (dst : RegField) (lo : Imm) (hi : Option Imm) (s : State) : Result :=
  s.withReg dst fun d =>
    match hi with
    | none => .next (s.raise .programCounterOutOfRange 0#64)
    | some h => .next ((s.setReg d (h ++ lo)).setPc (s.pc + 2#64))

/-- LDXW (42_load_store.md R123): 4 bytes, zero-extended. -/
def execLdxw (dst src : RegField) (offset : Offset) (s : State) : Result :=
  s.load dst src offset 4 (fun v => v.setWidth 64)

/-- LDXH (42_load_store.md R124): 2 bytes, sign-extended. -/
def execLdxh (dst src : RegField) (offset : Offset) (s : State) : Result :=
  s.load dst src offset 2 (fun v => v.signExtend 64)

/-- LDXB (42_load_store.md R125): 1 byte, sign-extended. -/
def execLdxb (dst src : RegField) (offset : Offset) (s : State) : Result :=
  s.load dst src offset 1 (fun v => v.signExtend 64)

/-- LDXDW (42_load_store.md R126): 8 bytes, no extension. -/
def execLdxdw (dst src : RegField) (offset : Offset) (s : State) : Result :=
  s.load dst src offset 8 (fun v => v.setWidth 64)

/-- STW (42_load_store.md R127): the low 32 bits of the sign-extended immediate (R121). -/
def execStw (dst : RegField) (offset : Offset) (imm : Imm) (s : State) : Result :=
  s.withReg dst fun b => s.store b offset 4 ((immOperand imm).setWidth (8 * 4))

/-- STH (42_load_store.md R128): the low 16 bits of the sign-extended immediate (R121). -/
def execSth (dst : RegField) (offset : Offset) (imm : Imm) (s : State) : Result :=
  s.withReg dst fun b => s.store b offset 2 ((immOperand imm).setWidth (8 * 2))

/-- STB (42_load_store.md R129): the low 8 bits of the sign-extended immediate (R121). -/
def execStb (dst : RegField) (offset : Offset) (imm : Imm) (s : State) : Result :=
  s.withReg dst fun b => s.store b offset 1 ((immOperand imm).setWidth (8 * 1))

/-- STDW (42_load_store.md R130): the low 64 bits of the sign-extended immediate (R121). -/
def execStdw (dst : RegField) (offset : Offset) (imm : Imm) (s : State) : Result :=
  s.withReg dst fun b => s.store b offset 8 ((immOperand imm).setWidth (8 * 8))

/-- STXW (42_load_store.md R131): the low 32 bits of `x[src]` (R121). -/
def execStxw (dst src : RegField) (offset : Offset) (s : State) : Result :=
  s.withRegs dst src fun b r => s.store b offset 4 ((s.reg r).setWidth (8 * 4))

/-- STXH (42_load_store.md R132): the low 16 bits of `x[src]` (R121). -/
def execStxh (dst src : RegField) (offset : Offset) (s : State) : Result :=
  s.withRegs dst src fun b r => s.store b offset 2 ((s.reg r).setWidth (8 * 2))

/-- STXB (42_load_store.md R133): the low 8 bits of `x[src]` (R121). -/
def execStxb (dst src : RegField) (offset : Offset) (s : State) : Result :=
  s.withRegs dst src fun b r => s.store b offset 1 ((s.reg r).setWidth (8 * 1))

/-- STXDW (42_load_store.md R134): the low 64 bits of `x[src]` (R121). -/
def execStxdw (dst src : RegField) (offset : Offset) (s : State) : Result :=
  s.withRegs dst src fun b r => s.store b offset 8 ((s.reg r).setWidth (8 * 8))

end Sys2Proof.Machine
end

