-- ==== Sys2Proof/Machine/Dispatch.lean ====
section
/-! DEFINITION. `exec`: the meaning of each instruction, one arm a constructor (spec 40_execution_cycle.md R71, "Execute(i)"). -/

namespace Sys2Proof.Machine

def exec (i : Instr) (s : State) : Host.Outcome State Fault Refusal :=
  match i with
  | .addImm dst imm => Sys2Proof.Machine.execAddImm dst imm s
  | .addReg dst src => Sys2Proof.Machine.execAddReg dst src s
  | .subImm dst imm => Sys2Proof.Machine.execSubImm dst imm s
  | .subReg dst src => Sys2Proof.Machine.execSubReg dst src s
  | .mulImm dst imm => Sys2Proof.Machine.execMulImm dst imm s
  | .mulReg dst src => Sys2Proof.Machine.execMulReg dst src s
  | .divImm dst imm => Sys2Proof.Machine.execDivImm dst imm s
  | .divReg dst src => Sys2Proof.Machine.execDivReg dst src s
  | .orImm dst imm => Sys2Proof.Machine.execOrImm dst imm s
  | .orReg dst src => Sys2Proof.Machine.execOrReg dst src s
  | .andImm dst imm => Sys2Proof.Machine.execAndImm dst imm s
  | .andReg dst src => Sys2Proof.Machine.execAndReg dst src s
  | .lshImm dst imm => Sys2Proof.Machine.execLshImm dst imm s
  | .lshReg dst src => Sys2Proof.Machine.execLshReg dst src s
  | .rshImm dst imm => Sys2Proof.Machine.execRshImm dst imm s
  | .rshReg dst src => Sys2Proof.Machine.execRshReg dst src s
  | .negImm dst => Sys2Proof.Machine.execNegImm dst s
  | .negReg dst => Sys2Proof.Machine.execNegReg dst s
  | .modImm dst imm => Sys2Proof.Machine.execModImm dst imm s
  | .modReg dst src => Sys2Proof.Machine.execModReg dst src s
  | .xorImm dst imm => Sys2Proof.Machine.execXorImm dst imm s
  | .xorReg dst src => Sys2Proof.Machine.execXorReg dst src s
  | .movImm dst imm => Sys2Proof.Machine.execMovImm dst imm s
  | .movReg dst src => Sys2Proof.Machine.execMovReg dst src s
  | .arshImm dst imm => Sys2Proof.Machine.execArshImm dst imm s
  | .arshReg dst src => Sys2Proof.Machine.execArshReg dst src s
  | .lddw dst lo hi => Sys2Proof.Machine.execLddw dst lo hi s
  | .ldxw dst src offset => Sys2Proof.Machine.execLdxw dst src offset s
  | .ldxh dst src offset => Sys2Proof.Machine.execLdxh dst src offset s
  | .ldxb dst src offset => Sys2Proof.Machine.execLdxb dst src offset s
  | .ldxdw dst src offset => Sys2Proof.Machine.execLdxdw dst src offset s
  | .stw dst offset imm => Sys2Proof.Machine.execStw dst offset imm s
  | .sth dst offset imm => Sys2Proof.Machine.execSth dst offset imm s
  | .stb dst offset imm => Sys2Proof.Machine.execStb dst offset imm s
  | .stdw dst offset imm => Sys2Proof.Machine.execStdw dst offset imm s
  | .stxw dst src offset => Sys2Proof.Machine.execStxw dst src offset s
  | .stxh dst src offset => Sys2Proof.Machine.execStxh dst src offset s
  | .stxb dst src offset => Sys2Proof.Machine.execStxb dst src offset s
  | .stxdw dst src offset => Sys2Proof.Machine.execStxdw dst src offset s
  | .ja offset => Sys2Proof.Machine.execJa offset s
  | .jeqImm dst imm offset => Sys2Proof.Machine.execJeqImm dst imm offset s
  | .jeqReg dst src offset => Sys2Proof.Machine.execJeqReg dst src offset s
  | .jgtImm dst imm offset => Sys2Proof.Machine.execJgtImm dst imm offset s
  | .jgtReg dst src offset => Sys2Proof.Machine.execJgtReg dst src offset s
  | .jgeImm dst imm offset => Sys2Proof.Machine.execJgeImm dst imm offset s
  | .jgeReg dst src offset => Sys2Proof.Machine.execJgeReg dst src offset s
  | .jsetImm dst imm offset => Sys2Proof.Machine.execJsetImm dst imm offset s
  | .jsetReg dst src offset => Sys2Proof.Machine.execJsetReg dst src offset s
  | .jneImm dst imm offset => Sys2Proof.Machine.execJneImm dst imm offset s
  | .jneReg dst src offset => Sys2Proof.Machine.execJneReg dst src offset s
  | .jsgtImm dst imm offset => Sys2Proof.Machine.execJsgtImm dst imm offset s
  | .jsgtReg dst src offset => Sys2Proof.Machine.execJsgtReg dst src offset s
  | .jsgeImm dst imm offset => Sys2Proof.Machine.execJsgeImm dst imm offset s
  | .jsgeReg dst src offset => Sys2Proof.Machine.execJsgeReg dst src offset s
  | .jltImm dst imm offset => Sys2Proof.Machine.execJltImm dst imm offset s
  | .jltReg dst src offset => Sys2Proof.Machine.execJltReg dst src offset s
  | .jleImm dst imm offset => Sys2Proof.Machine.execJleImm dst imm offset s
  | .jleReg dst src offset => Sys2Proof.Machine.execJleReg dst src offset s
  | .jsltImm dst imm offset => Sys2Proof.Machine.execJsltImm dst imm offset s
  | .jsltReg dst src offset => Sys2Proof.Machine.execJsltReg dst src offset s
  | .jsleImm dst imm offset => Sys2Proof.Machine.execJsleImm dst imm offset s
  | .jsleReg dst src offset => Sys2Proof.Machine.execJsleReg dst src offset s
  | .call offset => Sys2Proof.Machine.execCall offset s
  | .exit => Sys2Proof.Machine.execExit s

end Sys2Proof.Machine
end

