-- ==== Sys2Proof/WellFormed.lean ====
section
/-! DEFINITION. When an instruction is well formed: what a program must respect for the instruction to be able to do more than fault
(spec 10_state.md R12, 30_encoding.md R62). The machine runs the others too: they take the fault the spec names. -/

namespace Sys2Proof

/-- The field names one of the eleven registers (R12: "0 to 10"). -/
def namesRegister (f : RegField) : Bool := f.toNat ≤ 10

/-- An LDDW whose second slot is missing, the program having ended (R62). -/
def Instr.truncated : Instr → Bool
  | .lddw _ _ hi => hi.isNone
  | _ => false

/-- Every register field the instruction uses names a register, and a second slot it needs exists. -/
def Instr.wellFormed (i : Instr) : Bool :=
  i.dst?.all namesRegister && i.src?.all namesRegister && !i.truncated

end Sys2Proof
end

