-- ==== Sys2Proof/Decode.lean ====
section
/-! DEFINITION. The decoder and the encoder (spec 30_encoding.md R50 to R62). The opcode map is R58's; its byte values are the spec's
decision D1. Any change of that numbering is a change of `decode` and `opcodeOf` and of nothing else. -/

namespace Sys2Proof

/-- The record of a slot's eight bytes, in input order (R51, R53). -/
def slotOfBytes (b0 b1 b2 b3 b4 b5 b6 b7 : Byte) : Record where
  opcode := b0
  dst := b1.extractLsb' 0 4
  src := b1.extractLsb' 4 4
  offset := b3 ++ b2
  imm := b7 ++ b6 ++ b5 ++ b4

/-- The decoder block: one record "per 8-byte group, in source order" (R53). Bytes left after the last whole group give no record;
`launch` rejects such an input before this is used (R54). -/
def slots : List Byte → List Record
  | b0 :: b1 :: b2 :: b3 :: b4 :: b5 :: b6 :: b7 :: rest => slotOfBytes b0 b1 b2 b3 b4 b5 b6 b7 :: slots rest
  | _ => []

/-- Why a record stands for no instruction. -/
inductive DecodeError where
  /-- the opcode byte is not one of the 64 of R58 (R59) -/
  | unknownOpcode (opcode : Byte)
deriving DecidableEq, Repr

/-- Why bytes stand for no instruction. -/
inductive ReadError where
  /-- there is no whole 8-byte slot to read -/
  | noSlot
  /-- the first slot's record stands for none -/
  | decoding (e : DecodeError)
deriving DecidableEq, Repr

/-- The instruction a record stands for, selected by its opcode byte alone (R52, R58). `next` is the record of the following slot, where
there is one: LDDW takes its `imm`, no other instruction looks at it (R62). Fields an instruction does not use are dropped (R61). -/
def decode (r : Record) (next : Option Record) : Except DecodeError Instr :=
  match r.opcode with
  | 0x07#8 => .ok (.addImm r.dst r.imm)
  | 0x0f#8 => .ok (.addReg r.dst r.src)
  | 0x17#8 => .ok (.subImm r.dst r.imm)
  | 0x1f#8 => .ok (.subReg r.dst r.src)
  | 0x27#8 => .ok (.mulImm r.dst r.imm)
  | 0x2f#8 => .ok (.mulReg r.dst r.src)
  | 0x37#8 => .ok (.divImm r.dst r.imm)
  | 0x3f#8 => .ok (.divReg r.dst r.src)
  | 0x47#8 => .ok (.orImm r.dst r.imm)
  | 0x4f#8 => .ok (.orReg r.dst r.src)
  | 0x57#8 => .ok (.andImm r.dst r.imm)
  | 0x5f#8 => .ok (.andReg r.dst r.src)
  | 0x67#8 => .ok (.lshImm r.dst r.imm)
  | 0x6f#8 => .ok (.lshReg r.dst r.src)
  | 0x77#8 => .ok (.rshImm r.dst r.imm)
  | 0x7f#8 => .ok (.rshReg r.dst r.src)
  | 0x87#8 => .ok (.negImm r.dst)
  | 0x8f#8 => .ok (.negReg r.dst)
  | 0x97#8 => .ok (.modImm r.dst r.imm)
  | 0x9f#8 => .ok (.modReg r.dst r.src)
  | 0xa7#8 => .ok (.xorImm r.dst r.imm)
  | 0xaf#8 => .ok (.xorReg r.dst r.src)
  | 0xb7#8 => .ok (.movImm r.dst r.imm)
  | 0xbf#8 => .ok (.movReg r.dst r.src)
  | 0xc7#8 => .ok (.arshImm r.dst r.imm)
  | 0xcf#8 => .ok (.arshReg r.dst r.src)
  | 0x18#8 => .ok (.lddw r.dst r.imm (next.map Record.imm))
  | 0x61#8 => .ok (.ldxw r.dst r.src r.offset)
  | 0x69#8 => .ok (.ldxh r.dst r.src r.offset)
  | 0x71#8 => .ok (.ldxb r.dst r.src r.offset)
  | 0x79#8 => .ok (.ldxdw r.dst r.src r.offset)
  | 0x62#8 => .ok (.stw r.dst r.offset r.imm)
  | 0x6a#8 => .ok (.sth r.dst r.offset r.imm)
  | 0x72#8 => .ok (.stb r.dst r.offset r.imm)
  | 0x7a#8 => .ok (.stdw r.dst r.offset r.imm)
  | 0x63#8 => .ok (.stxw r.dst r.src r.offset)
  | 0x6b#8 => .ok (.stxh r.dst r.src r.offset)
  | 0x73#8 => .ok (.stxb r.dst r.src r.offset)
  | 0x7b#8 => .ok (.stxdw r.dst r.src r.offset)
  | 0x05#8 => .ok (.ja r.offset)
  | 0x15#8 => .ok (.jeqImm r.dst r.imm r.offset)
  | 0x1d#8 => .ok (.jeqReg r.dst r.src r.offset)
  | 0x25#8 => .ok (.jgtImm r.dst r.imm r.offset)
  | 0x2d#8 => .ok (.jgtReg r.dst r.src r.offset)
  | 0x35#8 => .ok (.jgeImm r.dst r.imm r.offset)
  | 0x3d#8 => .ok (.jgeReg r.dst r.src r.offset)
  | 0x45#8 => .ok (.jsetImm r.dst r.imm r.offset)
  | 0x4d#8 => .ok (.jsetReg r.dst r.src r.offset)
  | 0x55#8 => .ok (.jneImm r.dst r.imm r.offset)
  | 0x5d#8 => .ok (.jneReg r.dst r.src r.offset)
  | 0x65#8 => .ok (.jsgtImm r.dst r.imm r.offset)
  | 0x6d#8 => .ok (.jsgtReg r.dst r.src r.offset)
  | 0x75#8 => .ok (.jsgeImm r.dst r.imm r.offset)
  | 0x7d#8 => .ok (.jsgeReg r.dst r.src r.offset)
  | 0xa5#8 => .ok (.jltImm r.dst r.imm r.offset)
  | 0xad#8 => .ok (.jltReg r.dst r.src r.offset)
  | 0xb5#8 => .ok (.jleImm r.dst r.imm r.offset)
  | 0xbd#8 => .ok (.jleReg r.dst r.src r.offset)
  | 0xc5#8 => .ok (.jsltImm r.dst r.imm r.offset)
  | 0xcd#8 => .ok (.jsltReg r.dst r.src r.offset)
  | 0xd5#8 => .ok (.jsleImm r.dst r.imm r.offset)
  | 0xdd#8 => .ok (.jsleReg r.dst r.src r.offset)
  | 0x85#8 => .ok (.call r.offset)
  | 0x95#8 => .ok .exit
  | opcode => .error (.unknownOpcode opcode)

/-- The instruction that stands first in a byte string (R53, R62). Total: any bytes give an instruction or a named error. -/
def decodeBytes (bytes : List Byte) : Except ReadError Instr :=
  match slots bytes with
  | [] => .error .noSlot
  | r :: rest => (decode r rest.head?).mapError .decoding

/-- The opcode byte of an instruction (R58). -/
def opcodeOf : Instr → Byte
  | .addImm _ _ => 0x07#8
  | .addReg _ _ => 0x0f#8
  | .subImm _ _ => 0x17#8
  | .subReg _ _ => 0x1f#8
  | .mulImm _ _ => 0x27#8
  | .mulReg _ _ => 0x2f#8
  | .divImm _ _ => 0x37#8
  | .divReg _ _ => 0x3f#8
  | .orImm _ _ => 0x47#8
  | .orReg _ _ => 0x4f#8
  | .andImm _ _ => 0x57#8
  | .andReg _ _ => 0x5f#8
  | .lshImm _ _ => 0x67#8
  | .lshReg _ _ => 0x6f#8
  | .rshImm _ _ => 0x77#8
  | .rshReg _ _ => 0x7f#8
  | .negImm _ => 0x87#8
  | .negReg _ => 0x8f#8
  | .modImm _ _ => 0x97#8
  | .modReg _ _ => 0x9f#8
  | .xorImm _ _ => 0xa7#8
  | .xorReg _ _ => 0xaf#8
  | .movImm _ _ => 0xb7#8
  | .movReg _ _ => 0xbf#8
  | .arshImm _ _ => 0xc7#8
  | .arshReg _ _ => 0xcf#8
  | .lddw _ _ _ => 0x18#8
  | .ldxw _ _ _ => 0x61#8
  | .ldxh _ _ _ => 0x69#8
  | .ldxb _ _ _ => 0x71#8
  | .ldxdw _ _ _ => 0x79#8
  | .stw _ _ _ => 0x62#8
  | .sth _ _ _ => 0x6a#8
  | .stb _ _ _ => 0x72#8
  | .stdw _ _ _ => 0x7a#8
  | .stxw _ _ _ => 0x63#8
  | .stxh _ _ _ => 0x6b#8
  | .stxb _ _ _ => 0x73#8
  | .stxdw _ _ _ => 0x7b#8
  | .ja _ => 0x05#8
  | .jeqImm _ _ _ => 0x15#8
  | .jeqReg _ _ _ => 0x1d#8
  | .jgtImm _ _ _ => 0x25#8
  | .jgtReg _ _ _ => 0x2d#8
  | .jgeImm _ _ _ => 0x35#8
  | .jgeReg _ _ _ => 0x3d#8
  | .jsetImm _ _ _ => 0x45#8
  | .jsetReg _ _ _ => 0x4d#8
  | .jneImm _ _ _ => 0x55#8
  | .jneReg _ _ _ => 0x5d#8
  | .jsgtImm _ _ _ => 0x65#8
  | .jsgtReg _ _ _ => 0x6d#8
  | .jsgeImm _ _ _ => 0x75#8
  | .jsgeReg _ _ _ => 0x7d#8
  | .jltImm _ _ _ => 0xa5#8
  | .jltReg _ _ _ => 0xad#8
  | .jleImm _ _ _ => 0xb5#8
  | .jleReg _ _ _ => 0xbd#8
  | .jsltImm _ _ _ => 0xc5#8
  | .jsltReg _ _ _ => 0xcd#8
  | .jsleImm _ _ _ => 0xd5#8
  | .jsleReg _ _ _ => 0xdd#8
  | .call _ => 0x85#8
  | .exit => 0x95#8

/-- The record of an instruction's own slot; fields it does not use are written as zero (R64). -/
def encodeSlot (i : Instr) : Record where
  opcode := opcodeOf i
  dst := i.dst?.getD 0
  src := i.src?.getD 0
  offset := i.offset?.getD 0
  imm := i.imm?.getD 0

/-- The second slot of LDDW, all zero but its `imm` (R64). -/
def secondSlot (hi : Imm) : Record where
  opcode := 0
  dst := 0
  src := 0
  offset := 0
  imm := hi

/-- The eight bytes of a slot, in input order (R51). -/
def bytesOfSlot (r : Record) : List Byte :=
  [ r.opcode, r.src ++ r.dst, r.offset.extractLsb' 0 8, r.offset.extractLsb' 8 8,
    r.imm.extractLsb' 0 8, r.imm.extractLsb' 8 8, r.imm.extractLsb' 16 8, r.imm.extractLsb' 24 8 ]

/-- The slots of an instruction: one, or two for LDDW (R50, R62, R64). -/
def encodeSlots (i : Instr) : List Record :=
  encodeSlot i :: (i.nextImm?.map secondSlot).toList

/-- The bytes of an instruction (R51, R64). -/
def encode (i : Instr) : List Byte :=
  (encodeSlots i).flatMap bytesOfSlot

/-- Sixteen bytes, the longest instruction, least significant first, of an instruction given as the number the opcode table writes
(R52); the bits from `nbits` up are zero. -/
def tableBytes (nbits w : Nat) : List Byte :=
  (List.range 16).map fun k => BitVec.ofNat 8 (w % 2 ^ nbits / 2 ^ (8 * k))

/-- The instruction the decoder reads from an instruction given as the number the opcode table writes (R52). -/
def decodeTableWord (nbits w : Nat) : Option Instr :=
  (decodeBytes (tableBytes nbits w)).toOption

end Sys2Proof
end

