-- ==== Sys2Proof/Machine/Fetch.lean ====
section
/-! DEFINITION. The fetch of a step: the range check of pc, the record at pc, the recognition of its opcode (spec 40_execution_cycle.md
R71, events (1) to (3) of R72). -/

namespace Sys2Proof.Machine

/-- The instruction at pc, or the state after the fault the fetch raises (R71, R172). The record after it is passed to the decoder for
LDDW (R62); an index past the program's end has none. -/
def fetch (s : State) : Except State Instr :=
  match s.insnAt s.pc.toInt with
  | none => .error (s.raise .programCounterOutOfRange 0#64)
  | some r =>
    match decode r (s.insnAt (s.pc.toInt + 1)) with
    | .ok i => .ok i
    | .error (.unknownOpcode opcode) => .error (s.raise .unknownOpcode (opcode.setWidth 64))

/-- The state with `records` stored one after the other from index `k` of the program store. -/
def State.withSlots (s : State) (k : Nat) : List Record → State
  | [] => s
  | r :: rest => State.withSlots { s with prog := storeSlot s.prog k r } (k + 1) rest

end Sys2Proof.Machine
end

