-- ==== Sys2Proof/Machine/Step.lean ====
section
/-! DEFINITION. One step of the engine (spec 40_execution_cycle.md R71) and the placing of an instruction where the next step fetches. -/

namespace Sys2Proof.Machine

/-- `Step` (R71): "defined only when `status` = RUNNING"; every instruction writes `pc` itself. -/
def step (s : State) : Host.Outcome State Fault Refusal :=
  match s.status with
  | .running =>
    match fetch s with
    | .ok i => exec i s
    | .error t => .next t
  | .terminated => .fault .notRunning
  | .faulted => .fault .notRunning

/-- The state with the instruction `w` of the opcode table, and zeros up to the longest instruction's sixteen bytes, in the program store
at pc, RUNNING (log entry 2). A negative pc, which no slot can stand at, becomes 0. -/
def State.withFetchWord (s : State) (nbits w : Nat) : State :=
  State.withSlots { s with pc := BitVec.ofNat 64 s.pc.toInt.toNat, status := .running } s.pc.toInt.toNat (slots (tableBytes nbits w))

end Sys2Proof.Machine
end

