-- ==== Sys2Proof/Machine/Launch.lean ====
section
/-! DEFINITION. The host's two transactions (spec 00_scope.md R8): launch (70_reset_and_hazards.md R200, 60_exceptions.md R181) and result
(R202), and the run between them (40_execution_cycle.md R70). -/

namespace Sys2Proof.Machine

/-- `Launch(prog, MEM_CAP)` (R200), with LINK_REG, the open parameter of the run (R5, R9). An input whose length is no multiple of 8 is
rejected whole: MalformedInput, with the index the partial slot would have had and an empty program store (R54, R181). -/
def launch (linkReg : RegIdx) (bytes : List Byte) (memCap : Nat := Config.defaultMemCap) : State :=
  let s : State := { State.reset with memCap := memCap, linkReg := linkReg }
  if bytes.length % 8 = 0 then { s with prog := slots bytes }
  else s.raiseAt .malformedInput (BitVec.ofNat 64 (bytes.length / 8)) 0#64

/-- `Step` repeated while `status` = RUNNING (R70), at most `k` times: the bound is the host's and no machine state (R75). -/
def runSteps : Nat → State → State
  | 0, s => s
  | k + 1, s =>
    match step s with
    | .next t => runSteps k t
    | .fault _ => s
    | .refused _ => s

/-- What the host may read once a run has ended: "registers, memory, pc, status and fault descriptor are all readable in both terminal
states" (92_eei_decisions.md D30, settling R8 and R202). -/
structure RunResult where
  /-- TERMINATED or FAULTED -/
  status : RunStatus
  /-- the fault descriptor; NONE, 0, 0 at TERMINATED (R171, R17) -/
  faultKind : FaultKind
  faultIndex : Word
  faultInfo : Word
  /-- the final register values, or those of the partial state -/
  regs : Vector Word 11
  pc : Word
  /-- the memory snapshot -/
  mem : Memory
deriving DecidableEq, Repr

/-- What of a state the host reads (D30). -/
def State.readOut (s : State) : RunResult where
  status := s.status
  faultKind := s.faultKind
  faultIndex := s.faultIndex
  faultInfo := s.faultInfo
  regs := s.regs
  pc := s.pc
  mem := s.mem

/-- The result transaction: nothing is visible while RUNNING (R8, R202, D30). -/
def result (s : State) : Option RunResult :=
  match s.status with
  | .running => none
  | .terminated => some s.readOut
  | .faulted => some s.readOut

end Sys2Proof.Machine
end

