-- ==== Sys2Proof/Safety.lean ====
section
/-! DEFINITION. The terms the statements about the machine use: what a run may be relied on to keep, what one instruction changes and
leaves alone, and the form of an instruction rule of the spec (operands, encoding, effect, exceptions). -/

namespace Sys2Proof

/-! Groups of instructions, as the spec's families name them. -/

/-- The indexed loads, which read data memory (42_load_store.md section 3). -/
def Instr.isLoad : Instr → Bool
  | .ldxw _ _ _ => true
  | .ldxh _ _ _ => true
  | .ldxb _ _ _ => true
  | .ldxdw _ _ _ => true
  | _ => false

/-- The stores, which write data memory (42_load_store.md sections 4 and 5). -/
def Instr.isStore : Instr → Bool
  | .stw _ _ _ => true
  | .sth _ _ _ => true
  | .stb _ _ _ => true
  | .stdw _ _ _ => true
  | .stxw _ _ _ => true
  | .stxh _ _ _ => true
  | .stxb _ _ _ => true
  | .stxdw _ _ _ => true
  | _ => false

/-- The instructions that raise DivisionByZero (60_exceptions.md R180). -/
def Instr.divides : Instr → Bool
  | .divImm _ _ => true
  | .divReg _ _ => true
  | .modImm _ _ => true
  | .modReg _ _ => true
  | _ => false

/-- The 64 opcode bytes in ascending order, as 96_test_vectors_derived.md section 2.8 lists them. -/
def knownOpcodes : List Byte :=
  [ 0x05#8, 0x07#8, 0x0f#8, 0x15#8, 0x17#8, 0x18#8, 0x1d#8, 0x1f#8, 0x25#8, 0x27#8, 0x2d#8, 0x2f#8, 0x35#8, 0x37#8,
    0x3d#8, 0x3f#8, 0x45#8, 0x47#8, 0x4d#8, 0x4f#8, 0x55#8, 0x57#8, 0x5d#8, 0x5f#8, 0x61#8, 0x62#8, 0x63#8, 0x65#8,
    0x67#8, 0x69#8, 0x6a#8, 0x6b#8, 0x6d#8, 0x6f#8, 0x71#8, 0x72#8, 0x73#8, 0x75#8, 0x77#8, 0x79#8, 0x7a#8, 0x7b#8,
    0x7d#8, 0x7f#8, 0x85#8, 0x87#8, 0x8f#8, 0x95#8, 0x97#8, 0x9f#8, 0xa5#8, 0xa7#8, 0xad#8, 0xaf#8, 0xb5#8, 0xb7#8,
    0xbd#8, 0xbf#8, 0xc5#8, 0xc7#8, 0xcd#8, 0xcf#8, 0xd5#8, 0xdd#8 ]

end Sys2Proof

namespace Sys2Proof.Machine

/-! What one state keeps of another. -/

/-- The parameters of the run are the same (R9). -/
abbrev SameRun (s t : State) : Prop := t.prog = s.prog ∧ t.memCap = s.memCap ∧ t.linkReg = s.linkReg

/-- The fault descriptor is the same (R17). -/
abbrev SameFault (s t : State) : Prop :=
  t.faultKind = s.faultKind ∧ t.faultIndex = s.faultIndex ∧ t.faultInfo = s.faultInfo

/-- Every byte of memory reads the same. -/
def SameMem (s t : State) : Prop := ∀ a, t.mem.read a = s.mem.read a

/-- Every register reads the same. -/
def SameRegs (s t : State) : Prop := ∀ r, t.reg r = s.reg r

/-- `t` is `s` after the fault entry of R186: the descriptor and the status are written, everything else is as it was. -/
def FaultEntered (s t : State) (kind : FaultKind) (info : Word) : Prop :=
  t.status = .faulted ∧ t.faultKind = kind ∧ t.faultIndex = s.pc ∧ t.faultInfo = info ∧
  t.pc = s.pc ∧ SameRegs s t ∧ SameMem s t ∧ SameRun s t

/-! What an instruction does. Each of these says that `exec` answers a next state, what that state holds, and that everything else is as
it was. -/

/-- The instruction completes: `x[d]` becomes `v` and pc becomes `pc'`. -/
def WritesRegister (i : Instr) (s : State) (d : RegIdx) (v pc' : Word) : Prop :=
  ∃ t, exec i s = .next t ∧ t.reg d = v ∧ t.pc = pc' ∧ (∀ r, r ≠ d → t.reg r = s.reg r) ∧
    t.status = s.status ∧ SameFault s t ∧ SameMem s t ∧ SameRun s t

/-- The instruction completes: pc becomes `pc'`. -/
def MovesPc (i : Instr) (s : State) (pc' : Word) : Prop :=
  ∃ t, exec i s = .next t ∧ t.pc = pc' ∧ SameRegs s t ∧
    t.status = s.status ∧ SameFault s t ∧ SameMem s t ∧ SameRun s t

/-- The instruction completes: the `n` bytes from address `a` become the low `n` bytes of `v`, lowest first, and pc becomes `pc + 1`. -/
def StoresBytes (i : Instr) (s : State) (a n : Nat) (v : Word) : Prop :=
  ∃ t, exec i s = .next t ∧ (∀ k, k < n → t.mem.read (a + k) = v.extractLsb' (8 * k) 8) ∧
    (∀ b, b < a ∨ a + n ≤ b → t.mem.read b = s.mem.read b) ∧ t.pc = s.pc + 1#64 ∧ SameRegs s t ∧
    t.status = s.status ∧ SameFault s t ∧ SameRun s t

/-- The instruction raises a fault and changes nothing but status and descriptor. -/
def RaisesFault (i : Instr) (s : State) (kind : FaultKind) (info : Word) : Prop :=
  ∃ t, exec i s = .next t ∧ FaultEntered s t kind info

/-! The form of an instruction rule. `op` is the rule's opcode byte and `mk` the instruction; the last argument is what the rule says of
the result. A register field that names no register raises InvalidRegister, `dst` before `src` (R12, R72). -/

/-- `v` is `trunc_64(k)`: "the w-bit vector whose unsigned value is k mod 2^w" (R6). -/
def IsTrunc (v : Word) (k : Int) : Prop := (v.toNat : Int) = k % 2 ^ 64

/-- An ALU rule of immediate form; `res a b v` says that `v` is the result on the operands `a` and `b`. -/
def AluImmRule (op : Byte) (mk : RegField → Imm → Instr) (res : Word → Word → Word → Prop) : Prop :=
  (∀ r next, r.opcode = op → decode r next = .ok (mk r.dst r.imm)) ∧
  ∀ (s : State) (dst : RegField) (imm : Imm),
    (∀ d : RegIdx, dst.toNat = d.val →
      ∃ v, WritesRegister (mk dst imm) s d v (s.pc + 1#64) ∧ res (s.reg d) (imm.signExtend 64) v) ∧
    (10 < dst.toNat → RaisesFault (mk dst imm) s .invalidRegister (dst.setWidth 64))

/-- An ALU rule of register form. -/
def AluRegRule (op : Byte) (mk : RegField → RegField → Instr) (res : Word → Word → Word → Prop) : Prop :=
  (∀ r next, r.opcode = op → decode r next = .ok (mk r.dst r.src)) ∧
  ∀ (s : State) (dst src : RegField),
    (∀ d e : RegIdx, dst.toNat = d.val → src.toNat = e.val →
      ∃ v, WritesRegister (mk dst src) s d v (s.pc + 1#64) ∧ res (s.reg d) (s.reg e) v) ∧
    (10 < dst.toNat → RaisesFault (mk dst src) s .invalidRegister (dst.setWidth 64)) ∧
    (dst.toNat ≤ 10 → 10 < src.toNat → RaisesFault (mk dst src) s .invalidRegister (src.setWidth 64))

/-- The rule of the unary operation: only `dst` is used. -/
def AluUnaryRule (op : Byte) (mk : RegField → Instr) (res : Word → Word → Prop) : Prop :=
  (∀ r next, r.opcode = op → decode r next = .ok (mk r.dst)) ∧
  ∀ (s : State) (dst : RegField),
    (∀ d : RegIdx, dst.toNat = d.val → ∃ v, WritesRegister (mk dst) s d v (s.pc + 1#64) ∧ res (s.reg d) v) ∧
    (10 < dst.toNat → RaisesFault (mk dst) s .invalidRegister (dst.setWidth 64))

/-- A divide or modulo rule of immediate form: a zero immediate raises DivisionByZero. -/
def DivideImmRule (op : Byte) (mk : RegField → Imm → Instr) (res : Word → Word → Word → Prop) : Prop :=
  (∀ r next, r.opcode = op → decode r next = .ok (mk r.dst r.imm)) ∧
  ∀ (s : State) (dst : RegField) (imm : Imm),
    (∀ d : RegIdx, dst.toNat = d.val → imm ≠ 0#32 →
      ∃ v, WritesRegister (mk dst imm) s d v (s.pc + 1#64) ∧ res (s.reg d) (imm.signExtend 64) v) ∧
    (dst.toNat ≤ 10 → imm = 0#32 → RaisesFault (mk dst imm) s .divisionByZero 0#64) ∧
    (10 < dst.toNat → RaisesFault (mk dst imm) s .invalidRegister (dst.setWidth 64))

/-- A divide or modulo rule of register form: a zero divisor register raises DivisionByZero. -/
def DivideRegRule (op : Byte) (mk : RegField → RegField → Instr) (res : Word → Word → Word → Prop) : Prop :=
  (∀ r next, r.opcode = op → decode r next = .ok (mk r.dst r.src)) ∧
  ∀ (s : State) (dst src : RegField),
    (∀ d e : RegIdx, dst.toNat = d.val → src.toNat = e.val → s.reg e ≠ 0#64 →
      ∃ v, WritesRegister (mk dst src) s d v (s.pc + 1#64) ∧ res (s.reg d) (s.reg e) v) ∧
    (∀ e : RegIdx, dst.toNat ≤ 10 → src.toNat = e.val → s.reg e = 0#64 →
      RaisesFault (mk dst src) s .divisionByZero 0#64) ∧
    (10 < dst.toNat → RaisesFault (mk dst src) s .invalidRegister (dst.setWidth 64)) ∧
    (dst.toNat ≤ 10 → 10 < src.toNat → RaisesFault (mk dst src) s .invalidRegister (src.setWidth 64))

/-- A load rule of `n` bytes: the bytes at `ea`, lowest first, are the low bytes of the value; `ext v` says how it is widened. -/
def LoadRule (op : Byte) (mk : RegField → RegField → Offset → Instr) (n : Nat) (ext : Word → Prop) : Prop :=
  (∀ r next, r.opcode = op → decode r next = .ok (mk r.dst r.src r.offset)) ∧
  ∀ (s : State) (dst src : RegField) (offset : Offset),
    (∀ d b : RegIdx, dst.toNat = d.val → src.toNat = b.val →
      0 ≤ s.effectiveAddress b offset → s.effectiveAddress b offset + n ≤ s.memCap →
      ∃ v, WritesRegister (mk dst src offset) s d v (s.pc + 1#64) ∧ ext v ∧
        ∀ k, k < n → v.extractLsb' (8 * k) 8 = s.mem.read ((s.effectiveAddress b offset).toNat + k)) ∧
    (∀ b : RegIdx, dst.toNat ≤ 10 → src.toNat = b.val →
      (s.effectiveAddress b offset < 0 ∨ (s.memCap : Int) < s.effectiveAddress b offset + n) →
      RaisesFault (mk dst src offset) s .memoryAccessOutOfBounds 0#64) ∧
    (10 < dst.toNat → RaisesFault (mk dst src offset) s .invalidRegister (dst.setWidth 64)) ∧
    (dst.toNat ≤ 10 → 10 < src.toNat → RaisesFault (mk dst src offset) s .invalidRegister (src.setWidth 64))

/-- A store-immediate rule of `n` bytes, in a state whose memory is in its canonical form. -/
def StoreImmRule (op : Byte) (mk : RegField → Offset → Imm → Instr) (n : Nat) : Prop :=
  (∀ r next, r.opcode = op → decode r next = .ok (mk r.dst r.offset r.imm)) ∧
  ∀ (s : State) (dst : RegField) (offset : Offset) (imm : Imm),
    (∀ b : RegIdx, s.mem.wf = true → dst.toNat = b.val →
      0 ≤ s.effectiveAddress b offset → s.effectiveAddress b offset + n ≤ s.memCap →
      StoresBytes (mk dst offset imm) s (s.effectiveAddress b offset).toNat n (imm.signExtend 64)) ∧
    (∀ b : RegIdx, dst.toNat = b.val →
      (s.effectiveAddress b offset < 0 ∨ (s.memCap : Int) < s.effectiveAddress b offset + n) →
      RaisesFault (mk dst offset imm) s .memoryAccessOutOfBounds 0#64) ∧
    (10 < dst.toNat → RaisesFault (mk dst offset imm) s .invalidRegister (dst.setWidth 64))

/-- A store-register rule of `n` bytes, in a state whose memory is in its canonical form. -/
def StoreRegRule (op : Byte) (mk : RegField → RegField → Offset → Instr) (n : Nat) : Prop :=
  (∀ r next, r.opcode = op → decode r next = .ok (mk r.dst r.src r.offset)) ∧
  ∀ (s : State) (dst src : RegField) (offset : Offset),
    (∀ b e : RegIdx, s.mem.wf = true → dst.toNat = b.val → src.toNat = e.val →
      0 ≤ s.effectiveAddress b offset → s.effectiveAddress b offset + n ≤ s.memCap →
      StoresBytes (mk dst src offset) s (s.effectiveAddress b offset).toNat n (s.reg e)) ∧
    (∀ b : RegIdx, dst.toNat = b.val → src.toNat ≤ 10 →
      (s.effectiveAddress b offset < 0 ∨ (s.memCap : Int) < s.effectiveAddress b offset + n) →
      RaisesFault (mk dst src offset) s .memoryAccessOutOfBounds 0#64) ∧
    (10 < dst.toNat → RaisesFault (mk dst src offset) s .invalidRegister (dst.setWidth 64)) ∧
    (dst.toNat ≤ 10 → 10 < src.toNat → RaisesFault (mk dst src offset) s .invalidRegister (src.setWidth 64))

/-- A conditional-jump rule of immediate form with the predicate `p`. -/
def JumpImmRule (op : Byte) (mk : RegField → Imm → Offset → Instr) (p : Word → Word → Prop) : Prop :=
  (∀ r next, r.opcode = op → decode r next = .ok (mk r.dst r.imm r.offset)) ∧
  ∀ (s : State) (dst : RegField) (imm : Imm) (offset : Offset),
    (∀ d : RegIdx, dst.toNat = d.val → p (s.reg d) (imm.signExtend 64) →
      MovesPc (mk dst imm offset) s (s.pc + offset.signExtend 64)) ∧
    (∀ d : RegIdx, dst.toNat = d.val → ¬ p (s.reg d) (imm.signExtend 64) →
      MovesPc (mk dst imm offset) s (s.pc + 1#64)) ∧
    (10 < dst.toNat → RaisesFault (mk dst imm offset) s .invalidRegister (dst.setWidth 64))

/-- A conditional-jump rule of register form with the predicate `p`. -/
def JumpRegRule (op : Byte) (mk : RegField → RegField → Offset → Instr) (p : Word → Word → Prop) : Prop :=
  (∀ r next, r.opcode = op → decode r next = .ok (mk r.dst r.src r.offset)) ∧
  ∀ (s : State) (dst src : RegField) (offset : Offset),
    (∀ d e : RegIdx, dst.toNat = d.val → src.toNat = e.val → p (s.reg d) (s.reg e) →
      MovesPc (mk dst src offset) s (s.pc + offset.signExtend 64)) ∧
    (∀ d e : RegIdx, dst.toNat = d.val → src.toNat = e.val → ¬ p (s.reg d) (s.reg e) →
      MovesPc (mk dst src offset) s (s.pc + 1#64)) ∧
    (10 < dst.toNat → RaisesFault (mk dst src offset) s .invalidRegister (dst.setWidth 64)) ∧
    (dst.toNat ≤ 10 → 10 < src.toNat → RaisesFault (mk dst src offset) s .invalidRegister (src.setWidth 64))

/-! The program counter as an integer. -/

/-- How a completed instruction moves pc, as integers (R14). -/
def PcMoves (i : Instr) (fromPc toPc : Int) : Prop :=
  match i with
  | .exit => fromPc = toPc
  | .lddw _ _ _ => fromPc + 2 = toPc
  | .ja o => fromPc + o.toInt = toPc
  | .call o => fromPc + o.toInt = toPc
  | .jeqImm _ _ o => fromPc + 1 = toPc ∨ fromPc + o.toInt = toPc
  | .jeqReg _ _ o => fromPc + 1 = toPc ∨ fromPc + o.toInt = toPc
  | .jgtImm _ _ o => fromPc + 1 = toPc ∨ fromPc + o.toInt = toPc
  | .jgtReg _ _ o => fromPc + 1 = toPc ∨ fromPc + o.toInt = toPc
  | .jgeImm _ _ o => fromPc + 1 = toPc ∨ fromPc + o.toInt = toPc
  | .jgeReg _ _ o => fromPc + 1 = toPc ∨ fromPc + o.toInt = toPc
  | .jsetImm _ _ o => fromPc + 1 = toPc ∨ fromPc + o.toInt = toPc
  | .jsetReg _ _ o => fromPc + 1 = toPc ∨ fromPc + o.toInt = toPc
  | .jneImm _ _ o => fromPc + 1 = toPc ∨ fromPc + o.toInt = toPc
  | .jneReg _ _ o => fromPc + 1 = toPc ∨ fromPc + o.toInt = toPc
  | .jsgtImm _ _ o => fromPc + 1 = toPc ∨ fromPc + o.toInt = toPc
  | .jsgtReg _ _ o => fromPc + 1 = toPc ∨ fromPc + o.toInt = toPc
  | .jsgeImm _ _ o => fromPc + 1 = toPc ∨ fromPc + o.toInt = toPc
  | .jsgeReg _ _ o => fromPc + 1 = toPc ∨ fromPc + o.toInt = toPc
  | .jltImm _ _ o => fromPc + 1 = toPc ∨ fromPc + o.toInt = toPc
  | .jltReg _ _ o => fromPc + 1 = toPc ∨ fromPc + o.toInt = toPc
  | .jleImm _ _ o => fromPc + 1 = toPc ∨ fromPc + o.toInt = toPc
  | .jleReg _ _ o => fromPc + 1 = toPc ∨ fromPc + o.toInt = toPc
  | .jsltImm _ _ o => fromPc + 1 = toPc ∨ fromPc + o.toInt = toPc
  | .jsltReg _ _ o => fromPc + 1 = toPc ∨ fromPc + o.toInt = toPc
  | .jsleImm _ _ o => fromPc + 1 = toPc ∨ fromPc + o.toInt = toPc
  | .jsleReg _ _ o => fromPc + 1 = toPc ∨ fromPc + o.toInt = toPc
  | _ => fromPc + 1 = toPc

/-! The invariant. -/

/-- The fault descriptor says what R17 and R180 say it holds: nothing while no fault has occurred; else the kind, the index and the
information of that kind. -/
abbrev State.DescriptorOk (s : State) : Prop :=
  (s.status ≠ .faulted → s.faultKind = .noFault ∧ s.faultIndex = 0#64 ∧ s.faultInfo = 0#64) ∧
  (s.status = .faulted → s.faultKind ≠ .noFault) ∧
  (s.status = .faulted → s.faultKind ≠ .malformedInput → s.faultIndex = s.pc) ∧
  (s.faultKind = .malformedInput → s.prog = [] ∧ s.pc = 0#64) ∧
  (s.faultKind = .unknownOpcode → s.faultInfo.toNat < 256) ∧
  (s.faultKind = .invalidRegister → 11 ≤ s.faultInfo.toNat ∧ s.faultInfo.toNat ≤ 15) ∧
  (s.faultKind ≠ .unknownOpcode → s.faultKind ≠ .invalidRegister → s.faultInfo = 0#64)

/-- What every step keeps: memory in its canonical form and inside MEM_CAP, the bounds of R5, a pc that has not wrapped and lies within
one 16-bit offset of the program (R13), and a fault descriptor that says what it must. -/
abbrev State.Inv (s : State) : Prop :=
  s.mem.wf = true ∧ (∀ c ∈ s.mem, c.1 < s.memCap) ∧ s.memCap ≤ Config.sizeBound ∧ s.prog.length < Config.sizeBound ∧
  -32768 ≤ s.pc.toInt ∧ s.pc.toInt < s.prog.length + 32767 ∧ s.DescriptorOk

end Sys2Proof.Machine
end

