-- ==== Sys2Proof/Certificates/Slice0/Obligations.lean ====
section
/-! DEFINITION. The statements about the model, for the provers; OBLIGATIONS.json says of each its basis in the spec. -/

open Sys2Proof Sys2Proof.Machine

/-- Decoding an encoded well-formed instruction gives it back. For every well-formed instruction, with every value of every field it uses (both halves of LDDW's 64-bit immediate included), and whatever bytes follow it, the decoder reads from its bytes that instruction. (30_encoding.md sections 1 to 6, opcode_table.json) -/
def Obligations.DecodeOfEncodeIsTheInstruction : Prop :=
  ∀ (i : Instr) (tail : List Byte), i.wellFormed = true → decodeBytes (encode i ++ tail) = .ok i

/-- Every field of a decoded instruction is the slot's field of that name. If a record decodes to an instruction, the instruction's opcode byte is the record's, every field the instruction uses holds the record's field of that name, and the second immediate of LDDW is the next record's imm. (30_encoding.md sections 1, 4 and 6 (R52, R57, R62)) -/
def Obligations.DecodedFieldsAreTheSlotsFields : Prop :=
  ∀ (r : Record) (next : Option Record) (i : Instr), decode r next = .ok i →
    opcodeOf i = r.opcode ∧ (∀ x, i.dst? = some x → x = r.dst) ∧ (∀ x, i.src? = some x → x = r.src) ∧
    (∀ x, i.offset? = some x → x = r.offset) ∧ (∀ x, i.imm? = some x → x = r.imm) ∧
    (∀ x, i.nextImm? = some x → ∃ q, next = some q ∧ x = q.imm)

/-- Fields an instruction does not use make no difference (decision D28). If a record decodes to an instruction, every record with the same opcode byte that agrees with it on the fields the instruction uses decodes to the same instruction; of the next record only the imm counts. The extension to every instruction is the spec's decision D28. (30_encoding.md section 5, 92_eei_decisions.md D28) -/
def Obligations.UnusedFieldsAreIgnored : Prop :=
  ∀ (r q : Record) (next next' : Option Record) (i : Instr), decode r next = .ok i → q.opcode = r.opcode →
    (i.dst? ≠ none → q.dst = r.dst) → (i.src? ≠ none → q.src = r.src) → (i.offset? ≠ none → q.offset = r.offset) →
    (i.imm? ≠ none → q.imm = r.imm) → next'.map Record.imm = next.map Record.imm → decode q next' = .ok i

/-- A record decodes exactly when its opcode byte is one of the 64 known ones. The list of known opcode bytes has 64 distinct entries; a record decodes to some instruction exactly when its opcode byte is in the list, and otherwise decoding answers the unknown opcode byte. The byte values are the spec's decision D1. (30_encoding.md sections 4 and 5, 96_test_vectors_derived.md section 2.8) -/
def Obligations.ExactlyTheKnownOpcodesDecode : Prop :=
  knownOpcodes.length = 64 ∧ knownOpcodes.Nodup ∧
  ∀ (r : Record) (next : Option Record),
    (r.opcode ∈ knownOpcodes ↔ ∃ i, decode r next = .ok i) ∧
    (r.opcode ∉ knownOpcodes → decode r next = .error (.unknownOpcode r.opcode))

/-- The five fields stand in the slot's eight bytes as R51 lays them out. Of the record of eight bytes, opcode is byte 0, dst the low and src the high nibble of byte 1, offset bytes 2 and 3 and imm bytes 4 to 7, each little-endian. (R51) -/
def Obligations.SlotLayoutIsByteForByte : Prop :=
  ∀ b0 b1 b2 b3 b4 b5 b6 b7 : Byte,
    let r := slotOfBytes b0 b1 b2 b3 b4 b5 b6 b7
    r.opcode = b0 ∧ r.dst.toNat = b1.toNat % 16 ∧ r.src.toNat = b1.toNat / 16 ∧
    r.offset.toNat = b2.toNat + 256 * b3.toNat ∧
    r.imm.toNat = b4.toNat + 256 * (b5.toNat + 256 * (b6.toNat + 256 * b7.toNat))

/-- Example encodings of the spec, one of each form, decode to their instructions. Twelve byte strings written out in the spec's examples, at least one for each instruction form, decode to the instructions the spec writes beside them. (41_alu.md, 42_load_store.md, 43_branch.md, 44_call_exit.md) -/
def Obligations.SpecExampleWordsDecode : Prop :=
  (decodeBytes [0x07#8, 0x01#8, 0x00#8, 0x00#8, 0x09#8, 0x00#8, 0x00#8, 0x00#8]).toOption = some (.addImm 1#4 9#32) ∧
  (decodeBytes [0x0f#8, 0x21#8, 0x00#8, 0x00#8, 0x00#8, 0x00#8, 0x00#8, 0x00#8]).toOption = some (.addReg 1#4 2#4) ∧
  (decodeBytes [0x87#8, 0x03#8, 0x00#8, 0x00#8, 0x00#8, 0x00#8, 0x00#8, 0x00#8]).toOption = some (.negImm 3#4) ∧
  (decodeBytes [0x18#8, 0x01#8, 0x00#8, 0x00#8, 0x88#8, 0x77#8, 0x66#8, 0x55#8,
    0x00#8, 0x00#8, 0x00#8, 0x00#8, 0x44#8, 0x33#8, 0x22#8, 0x11#8]).toOption = some (.lddw 1#4 0x55667788#32 (some 0x11223344#32)) ∧
  (decodeBytes [0x69#8, 0x10#8, 0xfe#8, 0xff#8, 0x00#8, 0x00#8, 0x00#8, 0x00#8]).toOption = some (.ldxh 0#4 1#4 0xFFFE#16) ∧
  (decodeBytes [0x62#8, 0x01#8, 0x04#8, 0x00#8, 0x78#8, 0x56#8, 0x34#8, 0x12#8]).toOption = some (.stw 1#4 4#16 0x12345678#32) ∧
  (decodeBytes [0x6b#8, 0x21#8, 0x02#8, 0x00#8, 0x00#8, 0x00#8, 0x00#8, 0x00#8]).toOption = some (.stxh 1#4 2#4 2#16) ∧
  (decodeBytes [0x05#8, 0x00#8, 0xff#8, 0xff#8, 0x00#8, 0x00#8, 0x00#8, 0x00#8]).toOption = some (.ja 0xFFFF#16) ∧
  (decodeBytes [0xd5#8, 0x01#8, 0x04#8, 0x00#8, 0xfb#8, 0xff#8, 0xff#8, 0xff#8]).toOption = some (.jsleImm 1#4 0xFFFFFFFB#32 4#16) ∧
  (decodeBytes [0x1d#8, 0x21#8, 0x04#8, 0x00#8, 0x00#8, 0x00#8, 0x00#8, 0x00#8]).toOption = some (.jeqReg 1#4 2#4 4#16) ∧
  (decodeBytes [0x85#8, 0x00#8, 0x04#8, 0x00#8, 0x00#8, 0x00#8, 0x00#8, 0x00#8]).toOption = some (.call 4#16) ∧
  (decodeBytes [0x95#8, 0x00#8, 0x00#8, 0x00#8, 0x00#8, 0x00#8, 0x00#8, 0x00#8]).toOption = some .exit

/-- The program store holds one record per eight input bytes, in source order. For an input of 8N bytes the decoder gives N records, and the record of index k is the one of the bytes 8k to 8k+7. (30_encoding.md section 2 (R53), 10_state.md section 5 (R18)) -/
def Obligations.ProgramStoreIsTheInputInOrder : Prop :=
  ∀ (bytes : List Byte) (n : Nat), bytes.length = 8 * n →
    (slots bytes).length = n ∧
    ∀ k, k < n → (slots bytes)[k]? = some (slotOfBytes (bytes.getD (8 * k) 0) (bytes.getD (8 * k + 1) 0)
      (bytes.getD (8 * k + 2) 0) (bytes.getD (8 * k + 3) 0) (bytes.getD (8 * k + 4) 0) (bytes.getD (8 * k + 5) 0)
      (bytes.getD (8 * k + 6) 0) (bytes.getD (8 * k + 7) 0))

/-- A step runs exactly the instruction the record at pc decodes to. In a running state whose record at pc decodes, with the record after it, to an instruction, the step is that instruction's exec at that state; the model's step adds nothing around it, since every instruction writes pc itself. (40_execution_cycle.md (R71)) -/
def Obligations.StepRunsTheDecodedInstruction : Prop :=
  ∀ (s : State) (r : Record) (i : Instr), s.status = .running → s.insnAt s.pc.toInt = some r →
    decode r (s.insnAt (s.pc.toInt + 1)) = .ok i → step s = exec i s

/-- Step checks pc, fetches, checks the opcode and executes, as R71 orders it. In a running state: a pc below 0 or at least N raises ProgramCounterOutOfRange with info 0; otherwise the record at index pc is fetched; if its opcode byte is not one of the 64, UnknownOpcode is raised with that byte zero-extended; if it is, the step is the execution of the instruction the record decodes to, whose opcode byte is the record's, with no further increment of pc. (R71) -/
def Obligations.StepFetchesDispatchesAndExecutes : Prop :=
  ∀ s : State, s.status = .running →
    (s.pc.toInt < 0 ∨ (s.prog.length : Int) ≤ s.pc.toInt →
      ∃ t, step s = .next t ∧ FaultEntered s t .programCounterOutOfRange 0#64) ∧
    (0 ≤ s.pc.toInt → s.pc.toInt < s.prog.length →
      ∃ r, s.prog[s.pc.toInt.toNat]? = some r ∧
        (r.opcode ∉ knownOpcodes → ∃ t, step s = .next t ∧ FaultEntered s t .unknownOpcode (r.opcode.setWidth 64)) ∧
        (r.opcode ∈ knownOpcodes →
          ∃ i, decode r s.prog[s.pc.toInt.toNat + 1]? = .ok i ∧ opcodeOf i = r.opcode ∧ step s = exec i s))

/-- Executing a record with an unknown opcode byte raises UnknownOpcode with that byte (no step after it: log entry 3). In a running state whose record at pc has an opcode byte that is not one of the 64, the step raises UnknownOpcode with fault_index = pc and fault_info = the byte zero-extended, whatever the record's other fields are, and changes nothing but status and descriptor; no step follows, which the model says by its own fault notRunning (model's choice, log entry 3). (44_call_exit.md (R172), 60_exceptions.md section 4 (R186), 40_execution_cycle.md (R70, R71)) -/
def Obligations.UnknownOpcodeFaults : Prop :=
  ∀ (s : State) (r : Record), s.status = .running → s.insnAt s.pc.toInt = some r → r.opcode ∉ knownOpcodes →
    ∃ t, step s = .next t ∧ FaultEntered s t .unknownOpcode (r.opcode.setWidth 64) ∧ step t = .fault .notRunning

/-- A step answers a next state exactly while status is RUNNING. For every state, the step answers a next state exactly when status is RUNNING: the machine is never stuck in the middle of a run and refuses no instruction. (95_test_vectors.md section 4, 93_implementation_defined.md U12) -/
def Obligations.RunningStateAlwaysSteps : Prop :=
  ∀ s : State, (∃ t, step s = .next t) ↔ s.status = .running

/-- Once TERMINATED or FAULTED, no step happens and no state changes (stop by the model's name, log entry 3). In a state whose status is not RUNNING the step is the model's fault notRunning (the model's reading of "no step is defined", log entry 3), and a run of any number of steps leaves the state as it is. (40_execution_cycle.md (R70), 10_state.md section 4 (R16)) -/
def Obligations.EndedRunDoesNotChange : Prop :=
  ∀ s : State, s.status ≠ .running → step s = .fault .notRunning ∧ ∀ k, runSteps k s = s

/-- Every step keeps the machine's invariant. From every state that meets the invariant (memory in canonical form and inside MEM_CAP, the bounds on MEM_CAP and N, pc within one 16-bit offset of the program and so never wrapped, a fault descriptor that says what its kind must say), a step that answers a next state gives one that meets it. (10_state.md sections 2, 4 and 6 (R13, R17, R19), 60_exceptions.md section 1 (R180)) -/
def Obligations.StepKeepsTheInvariant : Prop :=
  ∀ s t : State, s.Inv → step s = .next t → t.Inv

/-- Every launch within the spec's bounds, malformed or not, meets the invariant. For every LINK_REG, every input shorter than 8 * 2^62 bytes and every MEM_CAP up to 2^62, the launched state meets the invariant. (70_reset_and_hazards.md section 1 (R200), 60_exceptions.md section 1 (R181)) -/
def Obligations.LaunchMeetsTheInvariant : Prop :=
  ∀ (linkReg : RegIdx) (bytes : List Byte) (memCap : Nat), bytes.length < 8 * 2 ^ 62 → memCap ≤ 2 ^ 62 →
    (launch linkReg bytes memCap).Inv

/-- The reset state meets the invariant. The invariant of StepKeepsTheInvariant holds at State.reset. (10_state.md section 8) -/
def Obligations.ResetMeetsTheInvariant : Prop :=
  State.reset.Inv

/-- A run of any number of steps keeps the invariant. From every state that meets the invariant, the state after at most k steps of the run meets it, for every k. (40_execution_cycle.md (R70)) -/
def Obligations.RunsKeepTheInvariant : Prop :=
  ∀ (k : Nat) (s : State), s.Inv → (runSteps k s).Inv

/-- The program store, MEM_CAP and LINK_REG never change during a run. Over every step that answers a next state, from any state, and over a run of any length, the program store (and so N), MEM_CAP and LINK_REG are what they were. (R9) -/
def Obligations.ParametersNeverChange : Prop :=
  (∀ s t : State, step s = .next t → t.prog = s.prog ∧ t.memCap = s.memCap ∧ t.linkReg = s.linkReg) ∧
  ∀ (k : Nat) (s : State), (runSteps k s).prog = s.prog ∧ (runSteps k s).memCap = s.memCap ∧
    (runSteps k s).linkReg = s.linkReg

/-- A step that faults changes no register, no memory byte and not pc (decision D29, log entry 5), and nothing follows it (log entry 3). From a running state, if a step leads to FAULTED, then it left every register, every memory byte, pc and the parameters as they were, the descriptor names the instruction index pc and a kind other than NONE and MalformedInput (R180, R186), and no step follows. That every kind is precise alike is the spec's decision D29 (log entry 5); that the step after it is the fault notRunning is the model's own choice (log entry 3). (60_exceptions.md section 4 (R185, R186), 60_exceptions.md section 1 (R180), 40_execution_cycle.md (R70, R71), 92_eei_decisions.md D29) -/
def Obligations.FaultsArePrecise : Prop :=
  ∀ s t : State, s.status = .running → step s = .next t → t.status = .faulted →
    SameRegs s t ∧ SameMem s t ∧ t.pc = s.pc ∧ SameRun s t ∧ t.faultIndex = s.pc ∧
    t.faultKind ≠ .noFault ∧ t.faultKind ≠ .malformedInput ∧ step t = .fault .notRunning

/-- Each fault kind is raised only by the instructions R180 names, with the information it names. If executing an instruction leads from a state that is not FAULTED to FAULTED, the kind is one of four: DivisionByZero only from DIV and MOD with info 0; MemoryAccessOutOfBounds only from loads and stores with info 0; ProgramCounterOutOfRange only from an LDDW without second slot with info 0; InvalidRegister only with the value, 11 to 15, of a register field the instruction uses. (60_exceptions.md section 1 (R180)) -/
def Obligations.EachFaultKindHasItsRaisers : Prop :=
  ∀ (i : Instr) (s t : State), exec i s = .next t → s.status ≠ .faulted → t.status = .faulted →
    (t.faultKind = .divisionByZero ∧ i.divides = true ∧ t.faultInfo = 0#64) ∨
    (t.faultKind = .memoryAccessOutOfBounds ∧ (i.isLoad = true ∨ i.isStore = true) ∧ t.faultInfo = 0#64) ∨
    (t.faultKind = .programCounterOutOfRange ∧ i.truncated = true ∧ t.faultInfo = 0#64) ∨
    (t.faultKind = .invalidRegister ∧
      ∃ f : RegField, (i.dst? = some f ∨ i.src? = some f) ∧ 11 ≤ f.toNat ∧ t.faultInfo = f.setWidth 64)

/-- A running machine becomes TERMINATED exactly by executing EXIT, which leaves pc where it is (decision D21). From a running state, a step leads to TERMINATED exactly when pc is in range and the record there has EXIT's opcode byte 0x95; and then registers, memory, pc, descriptor and parameters are unchanged. That pc stays at the EXIT is the spec's decision D21 (log entry 5). (40_execution_cycle.md (R74), 70_reset_and_hazards.md section 3 (R202), 44_call_exit.md (R171), 92_eei_decisions.md D21) -/
def Obligations.OnlyExitTerminates : Prop :=
  ∀ s t : State, s.status = .running → step s = .next t →
    (t.status = .terminated ↔ ∃ r, s.insnAt s.pc.toInt = some r ∧ r.opcode = 0x95#8) ∧
    (t.status = .terminated → SameRegs s t ∧ SameMem s t ∧ t.pc = s.pc ∧ SameFault s t ∧ SameRun s t)

/-- A completed step moves pc, as an exact integer, by the instruction's amount and never wraps. From a running state that meets the invariant, a step that completes without a fault moves pc, as integers with no wrap: EXIT not at all, LDDW by 2, JA and CALL by the signed offset, a conditional jump by 1 or by the signed offset (which of the two is in the jump rules), every other instruction by 1. (10_state.md section 2 (R13, R14), 40_execution_cycle.md (R73)) -/
def Obligations.CompletedStepMovesPcByTheRule : Prop :=
  ∀ (s t : State) (i : Instr), s.Inv → s.status = .running → fetch s = .ok i → step s = .next t → t.status ≠ .faulted →
    PcMoves i s.pc.toInt t.pc.toInt

/-- A step writes at most one register, and no step writes both a register and memory (decision D18). For every step that answers a next state there is a register such that all others read as before, and if any register reads differently then every byte of memory reads as before. R72 marks its order of events as the spec's decision D18. (40_execution_cycle.md (R72), 92_eei_decisions.md D18) -/
def Obligations.AtMostOneWritePerStep : Prop :=
  ∀ s t : State, step s = .next t →
    (∃ d, ∀ r, r ≠ d → t.reg r = s.reg r) ∧ ((∃ r, t.reg r ≠ s.reg r) → SameMem s t)

/-- Any instruction with a used register field of 11 to 15 raises InvalidRegister, dst first (decision D15). For every instruction and state: a used dst field above 10 raises InvalidRegister with its value; a used src field above 10, dst being unused or naming a register, raises it with src's value; either way nothing but status and descriptor changes. The fault kind is the spec's decision D15. (10_state.md section 1 (R12), 92_eei_decisions.md D15, D18) -/
def Obligations.UsedFieldsAreCheckedDstFirst : Prop :=
  ∀ (i : Instr) (s : State),
    (∀ f, i.dst? = some f → 10 < f.toNat → RaisesFault i s .invalidRegister (f.setWidth 64)) ∧
    (∀ f, i.src? = some f → 10 < f.toNat → (∀ g, i.dst? = some g → g.toNat ≤ 10) →
      RaisesFault i s .invalidRegister (f.setWidth 64))

/-- Only the eight stores change memory, and only when they do not fault. If executing an instruction changes what some byte of memory reads, the instruction is one of the eight stores, its status is unchanged, and every register reads as before. (10_state.md section 6 (R19), 20_memory.md section 1 (R30)) -/
def Obligations.OnlyStoresWriteMemory : Prop :=
  ∀ (i : Instr) (s t : State), exec i s = .next t → ¬ SameMem s t →
    i.isStore = true ∧ t.status = s.status ∧ SameRegs s t

/-- An instruction that is no load does not depend on the contents of memory. For an instruction that is not an indexed load, replacing the whole contents of memory changes nothing about what it does to every other piece of state: the same next state but for memory; and for one that is neither load nor store, memory itself is carried through unchanged. (10_state.md section 6 (R19), 20_memory.md section 1 (R30)) -/
def Obligations.OnlyLoadsDependOnMemory : Prop :=
  ∀ (i : Instr) (s : State) (m : Memory), i.isLoad = false →
    (∃ t u, exec i s = .next t ∧ exec i (s.setMem m) = .next u ∧ u.setMem [] = t.setMem []) ∧
    (i.isStore = false → ∃ t, exec i s = .next t ∧ exec i (s.setMem m) = .next (t.setMem m))

/-- LINK_REG makes no difference to any instruction but CALL (open parameter, D8). For every instruction other than CALL and every value of LINK_REG, changing LINK_REG changes nothing else in the next state. (44_call_exit.md (R170), 92_eei_decisions.md D8) -/
def Obligations.LinkRegMattersOnlyToCall : Prop :=
  ∀ (i : Instr) (s : State) (l : RegIdx), (∀ o, i ≠ .call o) →
    ∃ t, exec i s = .next t ∧ exec i { s with linkReg := l } = .next { t with linkReg := l }

/-- Taking a fault writes kind, index, info and status, and leaves the rest; MalformedInput reports floor(L / 8). The shared operation that takes a fault sets fault_kind, fault_index to pc, fault_info and status to FAULTED and leaves registers, memory, pc and parameters exactly as they were; for the MalformedInput of a launch the index is floor(L / 8). (R186) -/
def Obligations.RaiseIsTheFaultEntry : Prop :=
  (∀ (s : State) (kind : FaultKind) (info : Word), FaultEntered s (s.raise kind info) kind info) ∧
  ∀ (linkReg : RegIdx) (bytes : List Byte) (memCap : Nat), bytes.length % 8 ≠ 0 →
    (launch linkReg bytes memCap).status = .faulted ∧ (launch linkReg bytes memCap).faultKind = .malformedInput ∧
    (launch linkReg bytes memCap).faultIndex = BitVec.ofNat 64 (bytes.length / 8) ∧
    (launch linkReg bytes memCap).faultInfo = 0#64

/-- ADD and SUB write trunc_64 of the exact signed result (decision D9). ADD_IMM, ADD_REG, SUB_IMM and SUB_REG complete for every state and every operand that names registers, writing the exact integer sum or difference of the signed operands modulo 2^64 (the wrap is the spec's decision D9). The immediate is sign-extended; a register field above 10 that the form uses raises InvalidRegister, dst first; nothing else changes but x[dst] and pc, which advances by one. (41_alu.md section 2 (R88 to R91), 92_eei_decisions.md D9) -/
def Obligations.AddAndSubtractWrapTheExactResult : Prop :=
  AluImmRule 0x07#8 .addImm (fun a b v => IsTrunc v (a.toInt + b.toInt)) ∧
  AluRegRule 0x0f#8 .addReg (fun a b v => IsTrunc v (a.toInt + b.toInt)) ∧
  AluImmRule 0x17#8 .subImm (fun a b v => IsTrunc v (a.toInt - b.toInt)) ∧
  AluRegRule 0x1f#8 .subReg (fun a b v => IsTrunc v (a.toInt - b.toInt))

/-- MUL writes trunc_64 of the exact signed product (decision D9). MUL_IMM and MUL_REG complete and write the exact product of the signed operands modulo 2^64 (decision D9); the register form really multiplies. The immediate is sign-extended; a register field above 10 that the form uses raises InvalidRegister, dst first; nothing else changes but x[dst] and pc, which advances by one. (41_alu.md section 2 (R92, R93), 92_eei_decisions.md D9) -/
def Obligations.MultiplyWrapsTheExactProduct : Prop :=
  AluImmRule 0x27#8 .mulImm (fun a b v => IsTrunc v (a.toInt * b.toInt)) ∧
  AluRegRule 0x2f#8 .mulReg (fun a b v => IsTrunc v (a.toInt * b.toInt))

/-- DIV and MOD write the truncating quotient and its remainder, or raise DivisionByZero (decision D10). DIV_IMM, DIV_REG, MOD_IMM and MOD_REG with a non-zero divisor complete, writing trunc_64 of the quotient rounded toward zero or of its remainder (decision D10); with a zero divisor they raise DivisionByZero and leave the destination unmodified. The immediate is sign-extended; a register field above 10 that the form uses raises InvalidRegister, dst first; nothing else changes but x[dst] and pc, which advances by one. (41_alu.md section 3 (R94, R95, R106, R107), 92_eei_decisions.md D10) -/
def Obligations.DivideAndModuloTruncateOrFault : Prop :=
  DivideImmRule 0x37#8 .divImm (fun a b v => IsTrunc v (a.toInt.tdiv b.toInt)) ∧
  DivideRegRule 0x3f#8 .divReg (fun a b v => IsTrunc v (a.toInt.tdiv b.toInt)) ∧
  DivideImmRule 0x97#8 .modImm (fun a b v => IsTrunc v (a.toInt.tmod b.toInt)) ∧
  DivideRegRule 0x9f#8 .modReg (fun a b v => IsTrunc v (a.toInt.tmod b.toInt))

/-- a = b * (a div b) + (a rem b), with |rem| < |b| and the sign of a (decision D10). For all registers with a non-zero divisor, DIV_REG and MOD_REG complete with a quotient q and a remainder r such that b*q + r is a modulo 2^64, |r| < |b|, r is not negative where a is not and not positive where a is not; and q is -2^63 when a is -2^63 and b is -1, where r is 0. (41_alu.md section 7 (R114), 92_eei_decisions.md D10) -/
def Obligations.QuotientAndRemainderRecombine : Prop :=
  ∀ (s : State) (dst src : RegField) (d e : RegIdx), dst.toNat = d.val → src.toNat = e.val → s.reg e ≠ 0#64 →
    ∃ t u, exec (.divReg dst src) s = .next t ∧ exec (.modReg dst src) s = .next u ∧
      s.reg d = s.reg e * t.reg d + u.reg d ∧
      (u.reg d).toInt.natAbs < (s.reg e).toInt.natAbs ∧
      (0 ≤ (s.reg d).toInt → 0 ≤ (u.reg d).toInt) ∧ ((s.reg d).toInt ≤ 0 → (u.reg d).toInt ≤ 0) ∧
      (s.reg d = BitVec.intMin 64 → s.reg e = -1#64 → t.reg d = BitVec.intMin 64 ∧ u.reg d = 0#64)

/-- OR, AND and XOR act on each of the 64 bits. OR_IMM, OR_REG, AND_IMM, AND_REG, XOR_IMM and XOR_REG complete and write, in each of the 64 bits, the or, and, or exclusive or of the operands' bits. The immediate is sign-extended; a register field above 10 that the form uses raises InvalidRegister, dst first; nothing else changes but x[dst] and pc, which advances by one. (R96, R97, R98, R99, R108, R109) -/
def Obligations.OrAndXorAreBitwise : Prop :=
  AluImmRule 0x47#8 .orImm (fun a b v => ∀ k, v.getLsbD k = (a.getLsbD k || b.getLsbD k)) ∧
  AluRegRule 0x4f#8 .orReg (fun a b v => ∀ k, v.getLsbD k = (a.getLsbD k || b.getLsbD k)) ∧
  AluImmRule 0x57#8 .andImm (fun a b v => ∀ k, v.getLsbD k = (a.getLsbD k && b.getLsbD k)) ∧
  AluRegRule 0x5f#8 .andReg (fun a b v => ∀ k, v.getLsbD k = (a.getLsbD k && b.getLsbD k)) ∧
  AluImmRule 0xa7#8 .xorImm (fun a b v => ∀ k, v.getLsbD k = (a.getLsbD k ^^ b.getLsbD k)) ∧
  AluRegRule 0xaf#8 .xorReg (fun a b v => ∀ k, v.getLsbD k = (a.getLsbD k ^^ b.getLsbD k))

/-- LSH multiplies and RSH divides by 2^count, the count read unsigned and unmasked (decisions D11, D12). LSH_IMM, LSH_REG, RSH_IMM and RSH_REG complete; with the whole second operand as an unsigned count k, LSH writes a * 2^k modulo 2^64 and RSH writes the natural number a / 2^k, which are 0 for every k of 64 or more (decision D11); RSH is the logical shift (decision D12). The immediate is sign-extended; a register field above 10 that the form uses raises InvalidRegister, dst first; nothing else changes but x[dst] and pc, which advances by one. (41_alu.md sections 1 and 5 (R87, R100 to R103), 92_eei_decisions.md D11, D12) -/
def Obligations.LogicalShiftsMultiplyAndDivide : Prop :=
  AluImmRule 0x67#8 .lshImm (fun a b v => v.toNat = a.toNat * 2 ^ b.toNat % 2 ^ 64) ∧
  AluRegRule 0x6f#8 .lshReg (fun a b v => v.toNat = a.toNat * 2 ^ b.toNat % 2 ^ 64) ∧
  AluImmRule 0x77#8 .rshImm (fun a b v => v.toNat = a.toNat / 2 ^ b.toNat) ∧
  AluRegRule 0x7f#8 .rshReg (fun a b v => v.toNat = a.toNat / 2 ^ b.toNat)

/-- ARSH writes floor(signed(a) / 2^count) for every unsigned count (decision D11). ARSH_IMM and ARSH_REG complete and write the floor of the signed operand divided by 2^k, k being the whole second operand read unsigned: a true arithmetic shift, and all copies of the sign bit for counts of 64 or more (decision D11). The immediate is sign-extended; a register field above 10 that the form uses raises InvalidRegister, dst first; nothing else changes but x[dst] and pc, which advances by one. (41_alu.md sections 1 and 5 (R87, R112, R113), 92_eei_decisions.md D11) -/
def Obligations.ArithmeticShiftFloors : Prop :=
  AluImmRule 0xc7#8 .arshImm (fun a b v => v.toInt = a.toInt / 2 ^ b.toNat) ∧
  AluRegRule 0xcf#8 .arshReg (fun a b v => v.toInt = a.toInt / 2 ^ b.toNat)

/-- NEG_IMM and NEG_REG write the two's-complement negation of x[dst] (decisions D9, D31). NEG_IMM and NEG_REG complete whatever the src, imm and offset fields hold and write 0 - signed(x[dst]) modulo 2^64 (decision D9); both bytes mean the same (decision D31); dst above 10 raises InvalidRegister, src is never checked; nothing else changes but pc, which advances by one. (41_alu.md section 6 (R104, R105), 92_eei_decisions.md D9, D31) -/
def Obligations.NegateIgnoresEverythingButDst : Prop :=
  AluUnaryRule 0x87#8 .negImm (fun a v => IsTrunc v (0 - a.toInt)) ∧
  AluUnaryRule 0x8f#8 .negReg (fun a v => IsTrunc v (0 - a.toInt))

/-- MOV_IMM writes the sign-extended immediate, MOV_REG all 64 bits of x[src]. MOV_IMM completes and writes the immediate's signed value; MOV_REG completes and writes x[src]. The immediate is sign-extended; a register field above 10 that the form uses raises InvalidRegister, dst first; nothing else changes but x[dst] and pc, which advances by one. (R110, R111) -/
def Obligations.MoveCopiesTheOperand : Prop :=
  AluImmRule 0xb7#8 .movImm (fun _ b v => v = b) ∧
  AluRegRule 0xbf#8 .movReg (fun _ b v => v = b) ∧
  ∀ imm : Imm, (imm.signExtend 64).toInt = imm.toInt

/-- MemRead checks the bounds and joins n bytes, the lowest address least significant. For n of 1, 2, 4 or 8: outside 0 <= ea and ea + n <= MEM_CAP the read raises MemoryAccessOutOfBounds with info 0; inside, it goes on in the same state with the value whose bits 8k+7 to 8k are mem[ea + k]. (R33) -/
def Obligations.MemReadJoinsTheBytes : Prop :=
  ∀ (s : State) (ea : Int) (n : Nat) (k : BitVec (8 * n) → Result), n ∈ [1, 2, 4, 8] →
    (ea < 0 ∨ (s.memCap : Int) < ea + n →
      ∃ t, s.memRead ea n k = .next t ∧ FaultEntered s t .memoryAccessOutOfBounds 0#64) ∧
    (0 ≤ ea → ea + n ≤ s.memCap →
      ∃ v, s.memRead ea n k = k v ∧ ∀ j, j < n → v.extractLsb' (8 * j) 8 = s.mem.read (ea.toNat + j))

/-- MemWrite checks the bounds before every byte, then writes n bytes, lowest first, and no other. For n of 1, 2, 4 or 8 and memory in canonical form: outside the bounds the write raises MemoryAccessOutOfBounds with info 0 and no byte changes; inside, it goes on in a state that differs in memory only, where mem[ea + j] is bits 8j+7 to 8j of the value for j below n and every other byte is as before. (R34) -/
def Obligations.MemWriteStoresTheBytesOrNone : Prop :=
  ∀ (s : State) (ea : Int) (n : Nat) (v : BitVec (8 * n)) (k : State → Result), n ∈ [1, 2, 4, 8] → s.mem.wf = true →
    (ea < 0 ∨ (s.memCap : Int) < ea + n →
      ∃ t, s.memWrite ea n v k = .next t ∧ FaultEntered s t .memoryAccessOutOfBounds 0#64) ∧
    (0 ≤ ea → ea + n ≤ s.memCap →
      ∃ m, s.memWrite ea n v k = k { s with mem := m } ∧
        (∀ j, j < n → m.read (ea.toNat + j) = v.extractLsb' (8 * j) 8) ∧
        ∀ a, a < ea.toNat ∨ ea.toNat + n ≤ a → m.read a = s.mem.read a)

/-- The exact bounds check agrees with R35's wrapped 64-bit one for MEM_CAP up to 2^62 (decision D24). For widths 1, 2, 4, 8 and MEM_CAP up to 2^62, the check on the exact integer address admits an access exactly when MEM_CAP is at least n and the wrapped 64-bit sum of base and sign-extended offset, read as signed, lies between 0 and MEM_CAP - n. (20_memory.md section 3 (R35), 92_eei_decisions.md D24) -/
def Obligations.WrappedBoundsCheckAgrees : Prop :=
  ∀ (s : State) (b : RegIdx) (offset : Offset) (n : Nat), n ∈ [1, 2, 4, 8] → s.memCap ≤ 2 ^ 62 →
    (s.inBounds (s.effectiveAddress b offset) n = true ↔
      n ≤ s.memCap ∧ 0 ≤ (s.reg b + offset.signExtend 64).toInt ∧
      (s.reg b + offset.signExtend 64).toInt ≤ (s.memCap : Int) - n)

/-- A byte write keeps memory's canonical form, and equal contents are equal data (the model's own form, log entry 6). The canonical form of the memory list is the model's own (log entry 6): writing any byte anywhere keeps it, and two memories in that form that read the same at every address are the same list. (10_state.md section 6 (R19), 10_state.md section 8 (R25)) -/
def Obligations.MemoryWritesKeepTheCanonicalForm : Prop :=
  (∀ (m : Memory) (a : Nat) (b : Byte), m.wf = true → (m.write a b).wf = true) ∧
  ∀ m m' : Memory, m.wf = true → m'.wf = true → (∀ a, m.read a = m'.read a) → m = m'

/-- The indexed loads read little-endian bytes; W zero-extends, H and B sign-extend. LDXW, LDXH, LDXB and LDXDW with an effective address ea = x[src] + offset inside the bounds complete and write a value whose low bytes are the bytes at ea, lowest first, zero-extended for W, sign-extended for H and B; outside the bounds they raise MemoryAccessOutOfBounds; a register field above 10 raises InvalidRegister, dst first; nothing else changes but x[dst] and pc, which advances by one. (R123, R124, R125, R126) -/
def Obligations.LoadsReadAndWidenTheBytes : Prop :=
  LoadRule 0x61#8 .ldxw 4 (fun v => v.toNat < 2 ^ 32) ∧
  LoadRule 0x69#8 .ldxh 2 (fun v => -2 ^ 15 ≤ v.toInt ∧ v.toInt < 2 ^ 15) ∧
  LoadRule 0x71#8 .ldxb 1 (fun v => -2 ^ 7 ≤ v.toInt ∧ v.toInt < 2 ^ 7) ∧
  LoadRule 0x79#8 .ldxdw 8 (fun _ => True)

/-- The store-immediates write the low n bytes of the sign-extended immediate (decisions D4, D27). In a state whose memory is in canonical form, STW, STH, STB and STDW with ea = x[dst] + offset inside the bounds complete: the n bytes from ea become the low n bytes of the sign-extended immediate, lowest first, every other byte and every register is as before and pc advances by one; outside the bounds they raise MemoryAccessOutOfBounds with no byte written; dst above 10 raises InvalidRegister. That these instructions exist is the spec's decision D4. (42_load_store.md section 4 (R127 to R130), 92_eei_decisions.md D4, D27) -/
def Obligations.StoreImmediatesWriteTheirBytes : Prop :=
  StoreImmRule 0x62#8 .stw 4 ∧
  StoreImmRule 0x6a#8 .sth 2 ∧
  StoreImmRule 0x72#8 .stb 1 ∧
  StoreImmRule 0x7a#8 .stdw 8

/-- The store-registers write the low n bytes of x[src]. In a state whose memory is in canonical form, STXW, STXH, STXB and STXDW with ea = x[dst] + offset inside the bounds complete: the n bytes from ea become the low n bytes of x[src], lowest first, every other byte and every register is as before and pc advances by one; outside the bounds they raise MemoryAccessOutOfBounds with no byte written; a register field above 10 raises InvalidRegister, dst first. (R131, R132, R133, R134) -/
def Obligations.StoreRegistersWriteTheirBytes : Prop :=
  StoreRegRule 0x63#8 .stxw 4 ∧
  StoreRegRule 0x6b#8 .stxh 2 ∧
  StoreRegRule 0x73#8 .stxb 1 ∧
  StoreRegRule 0x7b#8 .stxdw 8

/-- A store of x[S] followed by a load of the same width at the same address returns it, widened. From a state whose memory is in canonical form, with the access inside the bounds: STX of each width then LDX of that width at the same base and offset completes, and the register loaded holds the low 32 bits of x[S] zero-extended (W), the low 16 or 8 sign-extended (H, B), or x[S] itself (DW). (20_memory.md section 7 (R41), 42_load_store.md section 1 (R121), 95_test_vectors.md T4) -/
def Obligations.StoreThenLoadReturnsTheValue : Prop :=
  ∀ (s : State) (fb fs fd : RegField) (b e d : RegIdx) (offset : Offset), s.mem.wf = true →
    fb.toNat = b.val → fs.toNat = e.val → fd.toNat = d.val → 0 ≤ s.effectiveAddress b offset →
    (s.effectiveAddress b offset + 4 ≤ s.memCap →
      ∃ t u, exec (.stxw fb fs offset) s = .next t ∧ exec (.ldxw fd fb offset) t = .next u ∧
        u.reg d = ((s.reg e).setWidth 32).setWidth 64) ∧
    (s.effectiveAddress b offset + 2 ≤ s.memCap →
      ∃ t u, exec (.stxh fb fs offset) s = .next t ∧ exec (.ldxh fd fb offset) t = .next u ∧
        u.reg d = ((s.reg e).setWidth 16).signExtend 64) ∧
    (s.effectiveAddress b offset + 1 ≤ s.memCap →
      ∃ t u, exec (.stxb fb fs offset) s = .next t ∧ exec (.ldxb fd fb offset) t = .next u ∧
        u.reg d = ((s.reg e).setWidth 8).signExtend 64) ∧
    (s.effectiveAddress b offset + 8 ≤ s.memCap →
      ∃ t u, exec (.stxdw fb fs offset) s = .next t ∧ exec (.ldxdw fd fb offset) t = .next u ∧
        u.reg d = s.reg e)

/-- LDDW writes next imm ++ imm and skips the second slot, or faults without one (decision D5). LDDW with a second slot completes: x[dst] becomes the next slot's imm joined above its own with no extension and pc advances by 2; without one it raises ProgramCounterOutOfRange at its own index, after the register check; dst above 10 raises InvalidRegister either way. In a running state whose slots at pc and pc + 1 are the encoding of LDDW with a 64-bit immediate, the step does exactly that. The two-slot form is the spec's decision D5. (42_load_store.md section 2 (R122), 30_encoding.md section 6 (R62), 92_eei_decisions.md D5) -/
def Obligations.LddwJoinsTwoSlots : Prop :=
  (∀ (s : State) (dst : RegField) (lo : Imm) (hi : Option Imm),
    (∀ (d : RegIdx) (h : Imm), dst.toNat = d.val → hi = some h →
      WritesRegister (.lddw dst lo hi) s d (BitVec.ofNat 64 (h.toNat * 2 ^ 32 + lo.toNat)) (s.pc + 2#64)) ∧
    (dst.toNat ≤ 10 → hi = none → RaisesFault (.lddw dst lo hi) s .programCounterOutOfRange 0#64) ∧
    (10 < dst.toNat → RaisesFault (.lddw dst lo hi) s .invalidRegister (dst.setWidth 64))) ∧
  ∀ (s : State) (dst : RegField) (d : RegIdx) (imm : Word) (q : Record), s.status = .running → dst.toNat = d.val →
    s.insnAt s.pc.toInt = some (encodeSlot (.lddw dst (imm.extractLsb' 0 32) none)) →
    s.insnAt (s.pc.toInt + 1) = some q → q.imm = imm.extractLsb' 32 32 →
    ∃ t, step s = .next t ∧ t.reg d = imm ∧ t.pc = s.pc + 2#64

/-- JA sets pc to pc + signed(offset) and changes nothing else. JA completes in every state: pc becomes pc + signed(offset), exactly that sum as an integer where the sum lies in the signed 64-bit range, nothing else changes; every record with opcode byte 0x05 decodes to it whatever dst, src and imm hold; and when the target lies outside the program the next fetch raises ProgramCounterOutOfRange at the target. (R142) -/
def Obligations.JumpAlwaysAddsTheOffset : Prop :=
  (∀ r next, r.opcode = 0x05#8 → decode r next = .ok (.ja r.offset)) ∧
  ∀ (s : State) (offset : Offset), MovesPc (.ja offset) s (s.pc + offset.signExtend 64) ∧
    (-2 ^ 63 ≤ s.pc.toInt + offset.toInt → s.pc.toInt + offset.toInt < 2 ^ 63 →
      (s.pc + offset.signExtend 64).toInt = s.pc.toInt + offset.toInt) ∧
    ∀ t, exec (.ja offset) s = .next t → s.status = .running →
      (t.pc.toInt < 0 ∨ (t.prog.length : Int) ≤ t.pc.toInt) →
      ∃ u, step t = .next u ∧ FaultEntered t u .programCounterOutOfRange 0#64

/-- JEQ and JNE compare all 64 bits. JEQ_IMM, JEQ_REG, JNE_IMM and JNE_REG complete for every state and every operand that names registers; JEQ is taken when all 64 bits of x[dst] and the comparand agree, JNE when some bit differs. When the predicate holds pc becomes pc + signed(offset), else pc + 1; the immediate is sign-extended first; nothing else changes; a register field above 10 that the form uses raises InvalidRegister, dst first. (R143, R144, R151, R152) -/
def Obligations.EqualityJumpsCompareAllBits : Prop :=
  JumpImmRule 0x15#8 .jeqImm (fun a b => ∀ k, a.getLsbD k = b.getLsbD k) ∧
  JumpRegRule 0x1d#8 .jeqReg (fun a b => ∀ k, a.getLsbD k = b.getLsbD k) ∧
  JumpImmRule 0x55#8 .jneImm (fun a b => ∃ k, a.getLsbD k ≠ b.getLsbD k) ∧
  JumpRegRule 0x5d#8 .jneReg (fun a b => ∃ k, a.getLsbD k ≠ b.getLsbD k)

/-- JGT, JGE, JLT and JLE compare unsigned 64-bit values (decision D13). JGT_IMM, JGT_REG, JGE_IMM, JGE_REG, JLT_IMM, JLT_REG, JLE_IMM and JLE_REG complete; the predicate compares x[dst] and the comparand as unsigned 64-bit numbers (decision D13). When the predicate holds pc becomes pc + signed(offset), else pc + 1; the immediate is sign-extended first; nothing else changes; a register field above 10 that the form uses raises InvalidRegister, dst first. (43_branch.md section 3 (R145 to R148, R157 to R160), 92_eei_decisions.md D13) -/
def Obligations.DefaultOrderJumpsAreUnsigned : Prop :=
  JumpImmRule 0x25#8 .jgtImm (fun a b => b.toNat < a.toNat) ∧
  JumpRegRule 0x2d#8 .jgtReg (fun a b => b.toNat < a.toNat) ∧
  JumpImmRule 0x35#8 .jgeImm (fun a b => b.toNat ≤ a.toNat) ∧
  JumpRegRule 0x3d#8 .jgeReg (fun a b => b.toNat ≤ a.toNat) ∧
  JumpImmRule 0xa5#8 .jltImm (fun a b => a.toNat < b.toNat) ∧
  JumpRegRule 0xad#8 .jltReg (fun a b => a.toNat < b.toNat) ∧
  JumpImmRule 0xb5#8 .jleImm (fun a b => a.toNat ≤ b.toNat) ∧
  JumpRegRule 0xbd#8 .jleReg (fun a b => a.toNat ≤ b.toNat)

/-- JSGT, JSGE, JSLT and JSLE compare signed 64-bit values. JSGT_IMM, JSGT_REG, JSGE_IMM, JSGE_REG, JSLT_IMM, JSLT_REG, JSLE_IMM and JSLE_REG complete; the predicate compares x[dst] and the comparand as signed 64-bit numbers. When the predicate holds pc becomes pc + signed(offset), else pc + 1; the immediate is sign-extended first; nothing else changes; a register field above 10 that the form uses raises InvalidRegister, dst first. (R153, R154, R155, R156, R161, R162, R163, R164) -/
def Obligations.SignedOrderJumpsAreSigned : Prop :=
  JumpImmRule 0x65#8 .jsgtImm (fun a b => b.toInt < a.toInt) ∧
  JumpRegRule 0x6d#8 .jsgtReg (fun a b => b.toInt < a.toInt) ∧
  JumpImmRule 0x75#8 .jsgeImm (fun a b => b.toInt ≤ a.toInt) ∧
  JumpRegRule 0x7d#8 .jsgeReg (fun a b => b.toInt ≤ a.toInt) ∧
  JumpImmRule 0xc5#8 .jsltImm (fun a b => a.toInt < b.toInt) ∧
  JumpRegRule 0xcd#8 .jsltReg (fun a b => a.toInt < b.toInt) ∧
  JumpImmRule 0xd5#8 .jsleImm (fun a b => a.toInt ≤ b.toInt) ∧
  JumpRegRule 0xdd#8 .jsleReg (fun a b => a.toInt ≤ b.toInt)

/-- JSET is taken when some bit is set in both operands. JSET_IMM and JSET_REG complete; the predicate holds exactly when some bit is set in both x[dst] and the comparand. When the predicate holds pc becomes pc + signed(offset), else pc + 1; the immediate is sign-extended first; nothing else changes; a register field above 10 that the form uses raises InvalidRegister, dst first. (R149, R150) -/
def Obligations.BitTestJumpsFindACommonBit : Prop :=
  JumpImmRule 0x45#8 .jsetImm (fun a b => ∃ k, a.getLsbD k = true ∧ b.getLsbD k = true) ∧
  JumpRegRule 0x4d#8 .jsetReg (fun a b => ∃ k, a.getLsbD k = true ∧ b.getLsbD k = true)

/-- Of each complementary pair of jumps exactly one is taken on the same operands. For operands that name registers, any state and any offset: of JEQ and JNE, JGT and JLE, JGE and JLT, JSGT and JSLE, JSGE and JSLT in register form on the same operands, one goes to pc + signed(offset) and the other to pc + 1. (43_branch.md section 1 (R141), 95_test_vectors.md section 4) -/
def Obligations.ComplementaryJumpsTakeOneOfTwo : Prop :=
  ∀ (s : State) (dst src : RegField) (offset : Offset), dst.toNat ≤ 10 → src.toNat ≤ 10 →
    ∀ i j : Instr, (i, j) ∈ [(Instr.jeqReg dst src offset, Instr.jneReg dst src offset),
        (.jgtReg dst src offset, .jleReg dst src offset), (.jgeReg dst src offset, .jltReg dst src offset),
        (.jsgtReg dst src offset, .jsleReg dst src offset), (.jsgeReg dst src offset, .jsltReg dst src offset)] →
      (MovesPc i s (s.pc + offset.signExtend 64) ∧ MovesPc j s (s.pc + 1#64)) ∨
      (MovesPc i s (s.pc + 1#64) ∧ MovesPc j s (s.pc + offset.signExtend 64))

/-- CALL writes pc + 1 to x[LINK_REG] and adds the offset to pc, for every LINK_REG (D8). CALL completes in every state, for whatever register LINK_REG is (open parameter, D8): x[LINK_REG] becomes pc + 1, pc becomes pc + signed(offset), nothing else changes; every record with opcode byte 0x85 decodes to it, its dst, src and imm unchecked. (44_call_exit.md (R170), 92_eei_decisions.md D7, D8) -/
def Obligations.CallLinksAndJumps : Prop :=
  (∀ r next, r.opcode = 0x85#8 → decode r next = .ok (.call r.offset)) ∧
  ∀ (s : State) (offset : Offset) (l : RegIdx), s.linkReg = l →
    WritesRegister (.call offset) s l (s.pc + 1#64) (s.pc + offset.signExtend 64)

/-- EXIT sets status to TERMINATED and changes nothing else (pc: decision D21; no step after it: log entry 3). EXIT completes in every state: status becomes TERMINATED; pc (decision D21, log entry 5), registers, memory, descriptor and parameters are unchanged; no step follows, which the model says by its own fault notRunning (model's choice, log entry 3); every record with opcode byte 0x95 decodes to it whatever its other fields hold. (44_call_exit.md (R171), 40_execution_cycle.md (R70, R71), 92_eei_decisions.md D21) -/
def Obligations.ExitOnlyTerminates : Prop :=
  (∀ r next, r.opcode = 0x95#8 → decode r next = .ok .exit) ∧
  ∀ s : State, ∃ t, exec .exit s = .next t ∧ t.status = .terminated ∧ t.pc = s.pc ∧ SameRegs s t ∧ SameMem s t ∧
    SameFault s t ∧ SameRun s t ∧ step t = .fault .notRunning

/-- After a launch every register is zero, pc is 0 and status RUNNING. For every LINK_REG, input and MEM_CAP every register of the launched state holds 0 and pc is 0; for an input whose length is a multiple of 8 status is RUNNING and, if it has a first slot, the record the first step fetches is that slot's; the same holds of State.reset. (R22, R23) -/
def Obligations.LaunchZeroesRegistersAndStartsAtIndexZero : Prop :=
  (∀ (linkReg : RegIdx) (bytes : List Byte) (memCap : Nat),
    (∀ r, (launch linkReg bytes memCap).reg r = 0#64) ∧ (launch linkReg bytes memCap).pc = 0#64 ∧
    (bytes.length % 8 = 0 → (launch linkReg bytes memCap).status = .running ∧
      (launch linkReg bytes memCap).insnAt (launch linkReg bytes memCap).pc.toInt = (slots bytes).head?)) ∧
  (∀ r, State.reset.reg r = 0#64) ∧ State.reset.pc = 0#64 ∧ State.reset.status = .running

/-- After a launch every byte of memory reads 0 and the fault descriptor is NONE, 0, 0 (decisions D17, D19). For every LINK_REG, MEM_CAP and input every byte of the launched state's memory reads 0x00 (decision D19), and MEM_CAP and LINK_REG are those given; for an input whose length is a multiple of 8 the descriptor is NONE, 0, 0 (decision D17) and the program store is the decoded input. (10_state.md section 8 (R24, R25), 92_eei_decisions.md D17, D19) -/
def Obligations.LaunchedMemoryAndDescriptorAreClear : Prop :=
  ∀ (linkReg : RegIdx) (bytes : List Byte) (memCap : Nat),
    let s := launch linkReg bytes memCap
    (∀ a, s.mem.read a = 0x00#8) ∧ s.memCap = memCap ∧ s.linkReg = linkReg ∧
    (bytes.length % 8 = 0 → s.faultKind = .noFault ∧ s.faultIndex = 0#64 ∧ s.faultInfo = 0#64 ∧ s.prog = slots bytes)

/-- An input whose length is no multiple of 8 is rejected whole at launch (decision D22). For such an input the launched state is FAULTED with MalformedInput, index floor(L / 8), info 0, an empty program store, and no step is ever taken: a run of any number of steps leaves it as it is (decision D22). (60_exceptions.md section 1 (R181), 30_encoding.md section 2 (R54), 92_eei_decisions.md D22) -/
def Obligations.MalformedInputRunsNothing : Prop :=
  ∀ (linkReg : RegIdx) (bytes : List Byte) (memCap k : Nat), bytes.length % 8 ≠ 0 →
    let s := launch linkReg bytes memCap
    s.status = .faulted ∧ s.faultKind = .malformedInput ∧ s.faultIndex = BitVec.ofNat 64 (bytes.length / 8) ∧
    s.faultInfo = 0#64 ∧ s.prog = [] ∧ runSteps k s = s

/-- The host gets a result exactly when the run has ended, and it is that state's (decisions D26, D30). The result is none exactly while status is RUNNING; in both terminal states it holds the status, the fault descriptor, the registers, pc and the memory of that state (decision D30), and a run of any number of further steps leaves it as it is (R202). (00_scope.md section 7 (R8), 70_reset_and_hazards.md section 3 (R202), 92_eei_decisions.md D26, D30) -/
def Obligations.ResultIsVisibleOnlyAtTheEnd : Prop :=
  ∀ s : State, (result s = none ↔ s.status = .running) ∧
    (s.status ≠ .running →
      (∃ r, result s = some r ∧ r.status = s.status ∧ r.faultKind = s.faultKind ∧ r.faultIndex = s.faultIndex ∧
        r.faultInfo = s.faultInfo ∧ r.regs = s.regs ∧ r.pc = s.pc ∧ r.mem = s.mem) ∧
      ∀ k, result (runSteps k s) = result s)
end

