-- ==== Sys2Proof/Laws/Memory.lean ====
section
/-! SUPPORT. The laws of data memory: what a byte written reads as, that every operation keeps the canonical form, that a canonical
memory is determined by what it reads, and what the n-byte accesses do byte by byte (spec 20_memory.md R31 to R34). -/

namespace Sys2Proof.Machine

theorem Memory.read_cons (a : Nat) (b : Byte) (m : Memory) (x : Nat) (h : x = a → m.read x = Config.unlistedByte) :
    Memory.read (Memory.cons a b m) x = if x = a then b else m.read x := by
  unfold Memory.cons
  split
  · next hb =>
    split
    · next hx => rw [h hx, hb]
    · rfl
  · rfl

/-- An address below every listed one reads as unlisted. -/
theorem Memory.read_of_lt (m : Memory) (lo a : Nat) (h : Memory.wfFrom lo m = true) (ha : a < lo) :
    m.read a = Config.unlistedByte := by
  induction m generalizing lo with
  | nil => rfl
  | cons c rest ih =>
    obtain ⟨k, b⟩ := c
    simp only [Memory.wfFrom, Bool.and_eq_true, decide_eq_true_eq] at h
    obtain ⟨⟨hk, -⟩, hr⟩ := h
    have : a ≠ k := by omega
    simp only [Memory.read, this, if_false]
    exact ih (k + 1) hr (by omega)

theorem Memory.wfFrom_mono {lo lo' : Nat} (m : Memory) (hl : lo' ≤ lo) (h : Memory.wfFrom lo m = true) :
    Memory.wfFrom lo' m = true := by
  cases m with
  | nil => rfl
  | cons c rest =>
    simp only [Memory.wfFrom, Bool.and_eq_true, decide_eq_true_eq] at h ⊢
    exact ⟨⟨by omega, h.1.2⟩, h.2⟩

theorem Memory.wfFrom_cons {lo a : Nat} (b : Byte) (m : Memory) (hl : lo ≤ a) (h : Memory.wfFrom (a + 1) m = true) :
    Memory.wfFrom lo (Memory.cons a b m) = true := by
  unfold Memory.cons
  split
  · exact Memory.wfFrom_mono m (by omega) h
  · next hb => simp [Memory.wfFrom, hl, hb, h]

/-- A byte write reads back at its address and leaves every other address alone. -/
theorem Memory.read_write (m : Memory) (lo a : Nat) (b : Byte) (x : Nat) (h : Memory.wfFrom lo m = true) :
    (m.write a b).read x = if x = a then b else m.read x := by
  induction m generalizing lo with
  | nil => exact Memory.read_cons a b [] x fun _ => rfl
  | cons c rest ih =>
    obtain ⟨k, d⟩ := c
    have hc := h
    simp only [Memory.wfFrom, Bool.and_eq_true, decide_eq_true_eq] at h
    obtain ⟨⟨hk, -⟩, hr⟩ := h
    unfold Memory.write
    split
    · next hak =>
      refine Memory.read_cons a b _ x fun hx => ?_
      have h1 : a ≠ k := by omega
      simp only [Memory.read, hx, h1, if_false]
      exact Memory.read_of_lt rest (k + 1) a hr (by omega)
    · split
      · next hak hk' =>
        subst hk'
        rw [Memory.read_cons _ _ _ _ fun hx => hx ▸ Memory.read_of_lt rest (a + 1) a hr (by omega)]
        by_cases hx : x = a <;> simp [Memory.read, hx]
      · next h1 h2 =>
        simp only [Memory.read, ih (k + 1) hr]
        by_cases hx : x = k
        · have : x ≠ a := by omega
          simp [hx]; omega
        · simp [hx]

theorem Memory.wfFrom_write (m : Memory) (lo a : Nat) (b : Byte) (h : Memory.wfFrom lo m = true) (hl : lo ≤ a) :
    Memory.wfFrom lo (m.write a b) = true := by
  induction m generalizing lo with
  | nil => exact Memory.wfFrom_cons b [] hl rfl
  | cons c rest ih =>
    obtain ⟨k, d⟩ := c
    have hc := h
    simp only [Memory.wfFrom, Bool.and_eq_true, decide_eq_true_eq] at h
    obtain ⟨⟨hk, hd⟩, hr⟩ := h
    unfold Memory.write
    split
    · next hak =>
      refine Memory.wfFrom_cons b _ hl ?_
      simp only [Memory.wfFrom, Bool.and_eq_true, decide_eq_true_eq]
      exact ⟨⟨by omega, hd⟩, hr⟩
    · split
      · next _ hk' => subst hk'; exact Memory.wfFrom_cons b rest hl hr
      · simp only [Memory.wfFrom, Bool.and_eq_true, decide_eq_true_eq]
        exact ⟨⟨hk, hd⟩, ih (k + 1) hr (by omega)⟩

/-- Addresses listed after a write are those listed before and the one written. -/
theorem Memory.mem_write (m : Memory) (a : Nat) (b : Byte) (c : Host.Cell) (h : c ∈ m.write a b) : c ∈ m ∨ c.1 = a := by
  have hcons : ∀ rest : Memory, c ∈ Memory.cons a b rest → c ∈ rest ∨ c.1 = a := by
    intro rest hc
    unfold Memory.cons at hc
    split at hc
    · exact .inl hc
    · rcases List.mem_cons.mp hc with hc | hc
      · exact .inr (by rw [hc])
      · exact .inl hc
  induction m with
  | nil => exact hcons [] h
  | cons q rest ih =>
    obtain ⟨k, d⟩ := q
    unfold Memory.write at h
    split at h
    · exact hcons _ h
    · split at h
      · exact (hcons _ h).imp (List.mem_cons_of_mem _) id
      · rcases List.mem_cons.mp h with h | h
        · exact .inl (h ▸ List.mem_cons_self)
        · exact (ih h).imp (List.mem_cons_of_mem _) id

/-- `writeBytes` keeps the canonical form. -/
theorem Memory.wf_writeBytes (m : Memory) (a n : Nat) {w : Nat} (v : BitVec w) (h : m.wf = true) :
    (m.writeBytes a n v).wf = true := by
  induction n with
  | zero => exact h
  | succ n ih => exact Memory.wfFrom_write _ 0 _ _ ih (Nat.zero_le _)

/-- What a byte reads as after `writeBytes`: byte `x - a` of the value inside, what it was outside (R34). -/
theorem Memory.read_writeBytes (m : Memory) (a n : Nat) {w : Nat} (v : BitVec w) (x : Nat) (h : m.wf = true) :
    (m.writeBytes a n v).read x =
      if a ≤ x ∧ x < a + n then v.extractLsb' (8 * (x - a)) 8 else m.read x := by
  induction n with
  | zero => rw [Memory.writeBytes, if_neg (by omega)]
  | succ n ih =>
    rw [Memory.writeBytes, Memory.read_write _ 0 _ _ _ (Memory.wf_writeBytes m a n v h), ih]
    by_cases hx : x = a + n
    · subst hx; simp
    · by_cases hi : a ≤ x ∧ x < a + n
      · have : a ≤ x ∧ x < a + (n + 1) := by omega
        simp [hx, hi, this]
      · have : ¬ (a ≤ x ∧ x < a + (n + 1)) := by omega
        simp [hx, hi, this]

/-- Addresses listed after `writeBytes` are those listed before and the `n` from `a`. -/
theorem Memory.mem_writeBytes (m : Memory) (a n : Nat) {w : Nat} (v : BitVec w) (c : Host.Cell)
    (h : c ∈ m.writeBytes a n v) : c ∈ m ∨ (a ≤ c.1 ∧ c.1 < a + n) := by
  induction n with
  | zero => exact .inl h
  | succ n ih =>
    rcases Memory.mem_write _ _ _ _ h with h | h
    · exact (ih h).imp id fun h => ⟨h.1, by omega⟩
    · exact .inr ⟨by omega, by omega⟩

/-- Bit `i` of `n` bytes read from `a` is bit `i % 8` of the byte at `a + i / 8` (R33). -/
theorem Memory.getLsbD_readBytes (m : Memory) (a n i : Nat) :
    (m.readBytes a n).getLsbD i = (decide (i < 8 * n) && (m.read (a + i / 8)).getLsbD (i % 8)) := by
  induction n generalizing a i with
  | zero => simp [Memory.readBytes]
  | succ n ih =>
    rw [Memory.readBytes]
    have happ : (m.readBytes (a + 1) n ++ m.read a).getLsbD i
        = if i < 8 then (m.read a).getLsbD i else (m.readBytes (a + 1) n).getLsbD (i - 8) := by
      rw [BitVec.getLsbD_append]
    refine happ.trans ?_
    by_cases h8 : i < 8
    · have h1 : i < 8 * (n + 1) := by omega
      have h2 : i / 8 = 0 := by omega
      have h3 : i % 8 = i := by omega
      simp [h8, h1, h2, h3]
    · have h1 : a + 1 + (i - 8) / 8 = a + i / 8 := by omega
      have h2 : (i - 8) % 8 = i % 8 := by omega
      have h3 : (i - 8 < 8 * n) = (i < 8 * (n + 1)) := propext (by omega)
      simp [h8, ih, h1, h2, h3]

/-- Byte `k` of `n` bytes read from `a` is the byte at `a + k` (R33). -/
theorem Memory.byte_readBytes (m : Memory) (a n k : Nat) (hk : k < n) :
    (m.readBytes a n).extractLsb' (8 * k) 8 = m.read (a + k) := by
  refine BitVec.eq_of_getLsbD_eq fun i hi => ?_
  have h1 : 8 * k + i < 8 * n := by omega
  have h2 : (8 * k + i) / 8 = k := by omega
  have h3 : (8 * k + i) % 8 = i := by omega
  rw [BitVec.getLsbD_extractLsb', Memory.getLsbD_readBytes, h2, h3]
  simp only [hi, h1, decide_true, Bool.true_and]

/-- Reading the bytes just written gives the value (R31, R41). -/
theorem Memory.readBytes_writeBytes (m : Memory) (a n : Nat) (v : BitVec (8 * n)) (h : m.wf = true) :
    (m.writeBytes a n v).readBytes a n = v := by
  refine BitVec.eq_of_getLsbD_eq fun i hi => ?_
  have h1 : a ≤ a + i / 8 ∧ a + i / 8 < a + n := by omega
  have h2 : i % 8 < 8 := by omega
  have h3 : 8 * (i / 8) + i % 8 = i := by omega
  rw [Memory.getLsbD_readBytes, Memory.read_writeBytes _ _ _ _ _ h, if_pos h1, Nat.add_sub_cancel_left,
    BitVec.getLsbD_extractLsb', h3]
  simp only [hi, h2, decide_true, Bool.true_and]

end Sys2Proof.Machine
end

