-- ==== Sys2Proof/Laws/State.lean ====
section
/-! SUPPORT. One lemma for each field under each update of the state, true by `rfl`, and the two laws of the register file, so that no
later proof unfolds a record update. -/

namespace Sys2Proof.Machine

@[simp] theorem setReg_pc (s : State) (d : RegIdx) (v : Word) : (s.setReg d v).pc = s.pc := rfl
@[simp] theorem setReg_status (s : State) (d : RegIdx) (v : Word) : (s.setReg d v).status = s.status := rfl
@[simp] theorem setReg_faultKind (s : State) (d : RegIdx) (v : Word) : (s.setReg d v).faultKind = s.faultKind := rfl
@[simp] theorem setReg_faultIndex (s : State) (d : RegIdx) (v : Word) : (s.setReg d v).faultIndex = s.faultIndex := rfl
@[simp] theorem setReg_faultInfo (s : State) (d : RegIdx) (v : Word) : (s.setReg d v).faultInfo = s.faultInfo := rfl
@[simp] theorem setReg_mem (s : State) (d : RegIdx) (v : Word) : (s.setReg d v).mem = s.mem := rfl
@[simp] theorem setReg_prog (s : State) (d : RegIdx) (v : Word) : (s.setReg d v).prog = s.prog := rfl
@[simp] theorem setReg_memCap (s : State) (d : RegIdx) (v : Word) : (s.setReg d v).memCap = s.memCap := rfl
@[simp] theorem setReg_linkReg (s : State) (d : RegIdx) (v : Word) : (s.setReg d v).linkReg = s.linkReg := rfl
@[simp] theorem setReg_insnAt (s : State) (d : RegIdx) (v : Word) (j : Int) : (s.setReg d v).insnAt j = s.insnAt j := rfl

@[simp] theorem setPc_pc (s : State) (p : Word) : (s.setPc p).pc = p := rfl
@[simp] theorem setPc_status (s : State) (p : Word) : (s.setPc p).status = s.status := rfl
@[simp] theorem setPc_faultKind (s : State) (p : Word) : (s.setPc p).faultKind = s.faultKind := rfl
@[simp] theorem setPc_faultIndex (s : State) (p : Word) : (s.setPc p).faultIndex = s.faultIndex := rfl
@[simp] theorem setPc_faultInfo (s : State) (p : Word) : (s.setPc p).faultInfo = s.faultInfo := rfl
@[simp] theorem setPc_mem (s : State) (p : Word) : (s.setPc p).mem = s.mem := rfl
@[simp] theorem setPc_prog (s : State) (p : Word) : (s.setPc p).prog = s.prog := rfl
@[simp] theorem setPc_memCap (s : State) (p : Word) : (s.setPc p).memCap = s.memCap := rfl
@[simp] theorem setPc_linkReg (s : State) (p : Word) : (s.setPc p).linkReg = s.linkReg := rfl
@[simp] theorem setPc_reg (s : State) (p : Word) (r : RegIdx) : (s.setPc p).reg r = s.reg r := rfl
@[simp] theorem setPc_insnAt (s : State) (p : Word) (j : Int) : (s.setPc p).insnAt j = s.insnAt j := rfl

@[simp] theorem setMem_pc (s : State) (m : Memory) : (s.setMem m).pc = s.pc := rfl
@[simp] theorem setMem_status (s : State) (m : Memory) : (s.setMem m).status = s.status := rfl
@[simp] theorem setMem_faultKind (s : State) (m : Memory) : (s.setMem m).faultKind = s.faultKind := rfl
@[simp] theorem setMem_faultIndex (s : State) (m : Memory) : (s.setMem m).faultIndex = s.faultIndex := rfl
@[simp] theorem setMem_faultInfo (s : State) (m : Memory) : (s.setMem m).faultInfo = s.faultInfo := rfl
@[simp] theorem setMem_mem (s : State) (m : Memory) : (s.setMem m).mem = m := rfl
@[simp] theorem setMem_prog (s : State) (m : Memory) : (s.setMem m).prog = s.prog := rfl
@[simp] theorem setMem_memCap (s : State) (m : Memory) : (s.setMem m).memCap = s.memCap := rfl
@[simp] theorem setMem_linkReg (s : State) (m : Memory) : (s.setMem m).linkReg = s.linkReg := rfl
@[simp] theorem setMem_reg (s : State) (m : Memory) (r : RegIdx) : (s.setMem m).reg r = s.reg r := rfl
@[simp] theorem setMem_insnAt (s : State) (m : Memory) (j : Int) : (s.setMem m).insnAt j = s.insnAt j := rfl

@[simp] theorem advance_pc (s : State) : s.advance.pc = s.pc + 1#64 := rfl
@[simp] theorem advance_status (s : State) : s.advance.status = s.status := rfl
@[simp] theorem advance_faultKind (s : State) : s.advance.faultKind = s.faultKind := rfl
@[simp] theorem advance_faultIndex (s : State) : s.advance.faultIndex = s.faultIndex := rfl
@[simp] theorem advance_faultInfo (s : State) : s.advance.faultInfo = s.faultInfo := rfl
@[simp] theorem advance_mem (s : State) : s.advance.mem = s.mem := rfl
@[simp] theorem advance_prog (s : State) : s.advance.prog = s.prog := rfl
@[simp] theorem advance_memCap (s : State) : s.advance.memCap = s.memCap := rfl
@[simp] theorem advance_linkReg (s : State) : s.advance.linkReg = s.linkReg := rfl
@[simp] theorem advance_reg (s : State) (r : RegIdx) : s.advance.reg r = s.reg r := rfl
@[simp] theorem advance_insnAt (s : State) (j : Int) : s.advance.insnAt j = s.insnAt j := rfl

@[simp] theorem terminate_pc (s : State) : s.terminate.pc = s.pc := rfl
@[simp] theorem terminate_status (s : State) : s.terminate.status = .terminated := rfl
@[simp] theorem terminate_faultKind (s : State) : s.terminate.faultKind = s.faultKind := rfl
@[simp] theorem terminate_faultIndex (s : State) : s.terminate.faultIndex = s.faultIndex := rfl
@[simp] theorem terminate_faultInfo (s : State) : s.terminate.faultInfo = s.faultInfo := rfl
@[simp] theorem terminate_mem (s : State) : s.terminate.mem = s.mem := rfl
@[simp] theorem terminate_prog (s : State) : s.terminate.prog = s.prog := rfl
@[simp] theorem terminate_memCap (s : State) : s.terminate.memCap = s.memCap := rfl
@[simp] theorem terminate_linkReg (s : State) : s.terminate.linkReg = s.linkReg := rfl
@[simp] theorem terminate_reg (s : State) (r : RegIdx) : s.terminate.reg r = s.reg r := rfl
@[simp] theorem terminate_insnAt (s : State) (j : Int) : s.terminate.insnAt j = s.insnAt j := rfl

@[simp] theorem raiseAt_pc (s : State) (k : FaultKind) (x y : Word) : (s.raiseAt k x y).pc = s.pc := rfl
@[simp] theorem raiseAt_status (s : State) (k : FaultKind) (x y : Word) : (s.raiseAt k x y).status = .faulted := rfl
@[simp] theorem raiseAt_faultKind (s : State) (k : FaultKind) (x y : Word) : (s.raiseAt k x y).faultKind = k := rfl
@[simp] theorem raiseAt_faultIndex (s : State) (k : FaultKind) (x y : Word) : (s.raiseAt k x y).faultIndex = x := rfl
@[simp] theorem raiseAt_faultInfo (s : State) (k : FaultKind) (x y : Word) : (s.raiseAt k x y).faultInfo = y := rfl
@[simp] theorem raiseAt_mem (s : State) (k : FaultKind) (x y : Word) : (s.raiseAt k x y).mem = s.mem := rfl
@[simp] theorem raiseAt_prog (s : State) (k : FaultKind) (x y : Word) : (s.raiseAt k x y).prog = s.prog := rfl
@[simp] theorem raiseAt_memCap (s : State) (k : FaultKind) (x y : Word) : (s.raiseAt k x y).memCap = s.memCap := rfl
@[simp] theorem raiseAt_linkReg (s : State) (k : FaultKind) (x y : Word) : (s.raiseAt k x y).linkReg = s.linkReg := rfl
@[simp] theorem raiseAt_reg (s : State) (k : FaultKind) (x y : Word) (r : RegIdx) : (s.raiseAt k x y).reg r = s.reg r := rfl
@[simp] theorem raiseAt_insnAt (s : State) (k : FaultKind) (x y : Word) (j : Int) : (s.raiseAt k x y).insnAt j = s.insnAt j := rfl

@[simp] theorem raise_pc (s : State) (k : FaultKind) (y : Word) : (s.raise k y).pc = s.pc := rfl
@[simp] theorem raise_status (s : State) (k : FaultKind) (y : Word) : (s.raise k y).status = .faulted := rfl
@[simp] theorem raise_faultKind (s : State) (k : FaultKind) (y : Word) : (s.raise k y).faultKind = k := rfl
@[simp] theorem raise_faultIndex (s : State) (k : FaultKind) (y : Word) : (s.raise k y).faultIndex = s.pc := rfl
@[simp] theorem raise_faultInfo (s : State) (k : FaultKind) (y : Word) : (s.raise k y).faultInfo = y := rfl
@[simp] theorem raise_mem (s : State) (k : FaultKind) (y : Word) : (s.raise k y).mem = s.mem := rfl
@[simp] theorem raise_prog (s : State) (k : FaultKind) (y : Word) : (s.raise k y).prog = s.prog := rfl
@[simp] theorem raise_memCap (s : State) (k : FaultKind) (y : Word) : (s.raise k y).memCap = s.memCap := rfl
@[simp] theorem raise_linkReg (s : State) (k : FaultKind) (y : Word) : (s.raise k y).linkReg = s.linkReg := rfl
@[simp] theorem raise_reg (s : State) (k : FaultKind) (y : Word) (r : RegIdx) : (s.raise k y).reg r = s.reg r := rfl
@[simp] theorem raise_insnAt (s : State) (k : FaultKind) (y : Word) (j : Int) : (s.raise k y).insnAt j = s.insnAt j := rfl

/-- A register just written reads as written. -/
@[simp] theorem setReg_reg_same (s : State) (d : RegIdx) (v : Word) : (s.setReg d v).reg d = v := by
  simp [State.setReg, State.reg]

/-- Writing a register leaves every other alone. -/
theorem setReg_reg_ne (s : State) {d r : RegIdx} (v : Word) (h : r ≠ d) : (s.setReg d v).reg r = s.reg r := by
  have h' : (d : Nat) ≠ r := fun e => h (Fin.ext e.symm)
  simp [State.setReg, State.reg, h']

/-- Every register holds zero at reset (R22). -/
theorem reset_reg (r : RegIdx) : State.reset.reg r = 0#64 := by
  simp [State.reset, State.reg]

/-- A field whose number is that of a register names it. -/
theorem regIdx?_of_eq {f : RegField} {d : RegIdx} (h : f.toNat = d.val) : regIdx? f = some d := by
  simp only [regIdx?, h, d.isLt, dif_pos]

/-- A field above 10 names no register (R12). -/
theorem regIdx?_of_gt {f : RegField} (h : 10 < f.toNat) : regIdx? f = none := by
  simp [regIdx?]; omega

/-- A field of at most 10 has the number of a register. -/
theorem exists_regIdx {f : RegField} (h : f.toNat ≤ 10) : ∃ d : RegIdx, f.toNat = d.val :=
  ⟨⟨f.toNat, by omega⟩, rfl⟩

/-- Either the field has the number of a register and names it, or it is above 10 and names none. -/
theorem regIdx?_cases (f : RegField) :
    (∃ d : RegIdx, f.toNat = d.val ∧ regIdx? f = some d) ∨ (10 < f.toNat ∧ regIdx? f = none) := by
  by_cases h : f.toNat ≤ 10
  · obtain ⟨d, hd⟩ := exists_regIdx h
    exact .inl ⟨d, hd, regIdx?_of_eq hd⟩
  · exact .inr ⟨by omega, regIdx?_of_gt (by omega)⟩

/-- The bounds check as inequalities (R35). -/
theorem inBounds_iff (s : State) (ea : Int) (n : Nat) : s.inBounds ea n = true ↔ 0 ≤ ea ∧ ea + n ≤ s.memCap := by
  simp [State.inBounds]

end Sys2Proof.Machine
end

