-- ==== Sys2Proof/Laws/Ops.lean ====
section
/-! SUPPORT. For each shared operation, once, everything it can do: the operand checks, the memory primitives and the skeletons. The
lemmas named `_eq` give the operation's answer where its checks pass; those named `_cases` say all that can come of it. -/

namespace Sys2Proof.Machine

variable (s : State)

/-- `Reg(f)` where `f` names a register (R12). -/
theorem withReg_eq {f : RegField} {d : RegIdx} (h : f.toNat = d.val) (k : RegIdx → Result) : s.withReg f k = k d := by
  simp [State.withReg, regIdx?_of_eq h]

/-- `Reg(f)` where `f` names none (R12). -/
theorem withReg_invalid {f : RegField} (h : 10 < f.toNat) (k : RegIdx → Result) :
    s.withReg f k = .next (s.raise .invalidRegister (f.setWidth 64)) := by
  simp [State.withReg, regIdx?_of_gt h]

theorem withRegs_eq {f g : RegField} {d e : RegIdx} (hf : f.toNat = d.val) (hg : g.toNat = e.val)
    (k : RegIdx → RegIdx → Result) : s.withRegs f g k = k d e := by
  simp [State.withRegs, withReg_eq s hf, withReg_eq s hg]

/-- `dst` is checked first (R12). -/
theorem withRegs_invalid_dst {f : RegField} (g : RegField) (h : 10 < f.toNat) (k : RegIdx → RegIdx → Result) :
    s.withRegs f g k = .next (s.raise .invalidRegister (f.setWidth 64)) := by
  simp [State.withRegs, withReg_invalid s h]

/-- `src` is checked where `dst` names a register (R12). -/
theorem withRegs_invalid_src {f g : RegField} (hf : f.toNat ≤ 10) (h : 10 < g.toNat) (k : RegIdx → RegIdx → Result) :
    s.withRegs f g k = .next (s.raise .invalidRegister (g.setWidth 64)) := by
  obtain ⟨d, hd⟩ := exists_regIdx hf
  simp [State.withRegs, withReg_eq s hd, withReg_invalid s h]

/-- All that can come of `Reg(f)`. -/
theorem withReg_cases (f : RegField) (k : RegIdx → Result) :
    (∃ d : RegIdx, f.toNat = d.val ∧ s.withReg f k = k d) ∨
    (10 < f.toNat ∧ s.withReg f k = .next (s.raise .invalidRegister (f.setWidth 64))) := by
  by_cases h : f.toNat ≤ 10
  · obtain ⟨d, hd⟩ := exists_regIdx h
    exact .inl ⟨d, hd, withReg_eq s hd k⟩
  · exact .inr ⟨by omega, withReg_invalid s (by omega) k⟩

/-- All that can come of the two checks. -/
theorem withRegs_cases (f g : RegField) (k : RegIdx → RegIdx → Result) :
    (∃ d e : RegIdx, f.toNat = d.val ∧ g.toNat = e.val ∧ s.withRegs f g k = k d e) ∨
    (10 < f.toNat ∧ s.withRegs f g k = .next (s.raise .invalidRegister (f.setWidth 64))) ∨
    (f.toNat ≤ 10 ∧ 10 < g.toNat ∧ s.withRegs f g k = .next (s.raise .invalidRegister (g.setWidth 64))) := by
  rcases withReg_cases s f (fun d => s.withReg g (k d)) with ⟨d, hd, h⟩ | ⟨hf, h⟩
  · rcases withReg_cases s g (k d) with ⟨e, he, h'⟩ | ⟨hg, h'⟩
    · exact .inl ⟨d, e, hd, he, h.trans h'⟩
    · exact .inr (.inr ⟨by have := d.isLt; omega, hg, h.trans h'⟩)
  · exact .inr (.inl ⟨hf, h⟩)

/-- All that can come of the divisor check. -/
theorem divide_cases (d : RegIdx) (b : Word) (f : Word → Word → Word) :
    (b ≠ 0#64 ∧ s.divide d b f = s.finish d (f (s.reg d) b)) ∨
    (b = 0#64 ∧ s.divide d b f = .next (s.raise .divisionByZero 0#64)) := by
  by_cases h : b = 0#64
  · exact .inr ⟨h, by simp [State.divide, h]⟩
  · exact .inl ⟨h, by simp [State.divide, h]⟩

/-- All that can come of `MemRead` (R33). -/
theorem memRead_cases (ea : Int) (n : Nat) (k : BitVec (8 * n) → Result) :
    ((0 ≤ ea ∧ ea + n ≤ s.memCap) ∧ s.memRead ea n k = k (s.mem.readBytes ea.toNat n)) ∨
    ((ea < 0 ∨ (s.memCap : Int) < ea + n) ∧ s.memRead ea n k = .next (s.raise .memoryAccessOutOfBounds 0#64)) := by
  by_cases h : s.inBounds ea n = true
  · exact .inl ⟨(inBounds_iff s ea n).mp h, by simp [State.memRead, h]⟩
  · refine .inr ⟨?_, by simp [State.memRead, h]⟩
    rw [inBounds_iff] at h
    omega

/-- All that can come of `MemWrite` (R34). -/
theorem memWrite_cases (ea : Int) (n : Nat) (v : BitVec (8 * n)) (k : State → Result) :
    ((0 ≤ ea ∧ ea + n ≤ s.memCap) ∧ s.memWrite ea n v k = k (s.setMem (s.mem.writeBytes ea.toNat n v))) ∨
    ((ea < 0 ∨ (s.memCap : Int) < ea + n) ∧ s.memWrite ea n v k = .next (s.raise .memoryAccessOutOfBounds 0#64)) := by
  by_cases h : s.inBounds ea n = true
  · exact .inl ⟨(inBounds_iff s ea n).mp h, by simp [State.memWrite, h]⟩
  · refine .inr ⟨?_, by simp [State.memWrite, h]⟩
    rw [inBounds_iff] at h
    omega

/-- A load inside the bounds (R120, R121). -/
theorem load_eq {dst src : RegField} {d b : RegIdx} (hd : dst.toNat = d.val) (hb : src.toNat = b.val) (offset : Offset)
    (n : Nat) (widen : BitVec (8 * n) → Word) (h0 : 0 ≤ s.effectiveAddress b offset)
    (h1 : s.effectiveAddress b offset + n ≤ s.memCap) :
    s.load dst src offset n widen = s.finish d (widen (s.mem.readBytes (s.effectiveAddress b offset).toNat n)) := by
  rw [State.load, withRegs_eq s hd hb]
  rcases memRead_cases s (s.effectiveAddress b offset) n fun v => s.finish d (widen v) with ⟨-, h⟩ | ⟨h, -⟩
  · exact h
  · omega

/-- A load outside the bounds (R35). -/
theorem load_outside {dst src : RegField} {b : RegIdx} (hd : dst.toNat ≤ 10) (hb : src.toNat = b.val) (offset : Offset)
    (n : Nat) (widen : BitVec (8 * n) → Word)
    (h : s.effectiveAddress b offset < 0 ∨ (s.memCap : Int) < s.effectiveAddress b offset + n) :
    s.load dst src offset n widen = .next (s.raise .memoryAccessOutOfBounds 0#64) := by
  obtain ⟨d, hd⟩ := exists_regIdx hd
  rw [State.load, withRegs_eq s hd hb]
  rcases memRead_cases s (s.effectiveAddress b offset) n fun v => s.finish d (widen v) with ⟨h', -⟩ | ⟨-, h'⟩
  · omega
  · exact h'

/-- All that can come of the end of a store (R34). -/
theorem store_cases (b : RegIdx) (offset : Offset) (n : Nat) (v : BitVec (8 * n)) :
    ((0 ≤ s.effectiveAddress b offset ∧ s.effectiveAddress b offset + n ≤ s.memCap) ∧
      s.store b offset n v =
        .next (s.setMem (s.mem.writeBytes (s.effectiveAddress b offset).toNat n v)).advance) ∨
    ((s.effectiveAddress b offset < 0 ∨ (s.memCap : Int) < s.effectiveAddress b offset + n) ∧
      s.store b offset n v = .next (s.raise .memoryAccessOutOfBounds 0#64)) :=
  memWrite_cases s (s.effectiveAddress b offset) n v fun t => .next t.advance

/-- All that can come of a conditional jump's end (R141). -/
theorem branch_cases (p : Bool) (offset : Offset) :
    (p = true ∧ s.branch p offset = .next (s.setPc (s.pc + offset.signExtend 64))) ∨
    (p = false ∧ s.branch p offset = .next (s.setPc (s.pc + 1#64))) := by
  cases p
  · exact .inr ⟨rfl, rfl⟩
  · exact .inl ⟨rfl, rfl⟩

end Sys2Proof.Machine
end

