-- ==== Sys2Proof/Laws/Exec.lean ====
section
/-! SUPPORT. What executing one instruction can do, said once: `exec` always answers a next state, and that state is one of five kinds
(`Effect`). The invariants and frames are read off it. -/

namespace Sys2Proof.Machine

/-- Why an instruction raises a fault, with the kind and the information it reports (R180). -/
inductive FaultCause (i : Instr) : FaultKind → Word → Prop where
  | badRegister {f : RegField} (used : i.dst? = some f ∨ i.src? = some f) (high : 10 < f.toNat) :
      FaultCause i .invalidRegister (f.setWidth 64)
  | zeroDivisor (h : i.divides = true) : FaultCause i .divisionByZero 0#64
  | outOfBounds (h : i.isLoad = true ∨ i.isStore = true) : FaultCause i .memoryAccessOutOfBounds 0#64
  | noSecondSlot (h : i.truncated = true) : FaultCause i .programCounterOutOfRange 0#64

/-- Where a completed instruction may leave pc (R14). -/
def PcNext (i : Instr) (s : State) (p : Word) : Prop :=
  match i with
  | .exit => p = s.pc
  | .lddw _ _ hi => hi ≠ none ∧ p = s.pc + 2#64
  | .ja o => p = s.pc + o.signExtend 64
  | .call o => p = s.pc + o.signExtend 64
  | .jeqImm _ _ o => p = s.pc + 1#64 ∨ p = s.pc + o.signExtend 64
  | .jeqReg _ _ o => p = s.pc + 1#64 ∨ p = s.pc + o.signExtend 64
  | .jgtImm _ _ o => p = s.pc + 1#64 ∨ p = s.pc + o.signExtend 64
  | .jgtReg _ _ o => p = s.pc + 1#64 ∨ p = s.pc + o.signExtend 64
  | .jgeImm _ _ o => p = s.pc + 1#64 ∨ p = s.pc + o.signExtend 64
  | .jgeReg _ _ o => p = s.pc + 1#64 ∨ p = s.pc + o.signExtend 64
  | .jsetImm _ _ o => p = s.pc + 1#64 ∨ p = s.pc + o.signExtend 64
  | .jsetReg _ _ o => p = s.pc + 1#64 ∨ p = s.pc + o.signExtend 64
  | .jneImm _ _ o => p = s.pc + 1#64 ∨ p = s.pc + o.signExtend 64
  | .jneReg _ _ o => p = s.pc + 1#64 ∨ p = s.pc + o.signExtend 64
  | .jsgtImm _ _ o => p = s.pc + 1#64 ∨ p = s.pc + o.signExtend 64
  | .jsgtReg _ _ o => p = s.pc + 1#64 ∨ p = s.pc + o.signExtend 64
  | .jsgeImm _ _ o => p = s.pc + 1#64 ∨ p = s.pc + o.signExtend 64
  | .jsgeReg _ _ o => p = s.pc + 1#64 ∨ p = s.pc + o.signExtend 64
  | .jltImm _ _ o => p = s.pc + 1#64 ∨ p = s.pc + o.signExtend 64
  | .jltReg _ _ o => p = s.pc + 1#64 ∨ p = s.pc + o.signExtend 64
  | .jleImm _ _ o => p = s.pc + 1#64 ∨ p = s.pc + o.signExtend 64
  | .jleReg _ _ o => p = s.pc + 1#64 ∨ p = s.pc + o.signExtend 64
  | .jsltImm _ _ o => p = s.pc + 1#64 ∨ p = s.pc + o.signExtend 64
  | .jsltReg _ _ o => p = s.pc + 1#64 ∨ p = s.pc + o.signExtend 64
  | .jsleImm _ _ o => p = s.pc + 1#64 ∨ p = s.pc + o.signExtend 64
  | .jsleReg _ _ o => p = s.pc + 1#64 ∨ p = s.pc + o.signExtend 64
  | _ => p = s.pc + 1#64

/-- What the state after an instruction can be. -/
inductive Effect (i : Instr) (s : State) : State → Prop where
  /-- a fault was taken -/
  | fault {kind : FaultKind} {info : Word} (why : FaultCause i kind info) : Effect i s (s.raise kind info)
  /-- one register and pc were written -/
  | reg (d : RegIdx) (v p : Word) (hp : PcNext i s p) (notStore : i.isStore = false) (running : i ≠ .exit) :
      Effect i s ((s.setReg d v).setPc p)
  /-- pc alone was written -/
  | jump (p : Word) (hp : PcNext i s p) (notStore : i.isStore = false) (running : i ≠ .exit) : Effect i s (s.setPc p)
  /-- bytes inside the bounds were stored and pc was advanced -/
  | store (a n : Nat) {w : Nat} (v : BitVec w) (isStore : i.isStore = true) (inside : a + n ≤ s.memCap)
      (hp : PcNext i s (s.pc + 1#64)) : Effect i s ((s.setMem (s.mem.writeBytes a n v)).setPc (s.pc + 1#64))
  /-- the run was ended -/
  | exit (isExit : i = .exit) : Effect i s s.terminate

variable {i : Instr} {s : State}

theorem aluImm_effect {dst : RegField} (hd : i.dst? = some dst) (hp : PcNext i s (s.pc + 1#64)) (hs : i.isStore = false)
    (hx : i ≠ .exit) (imm : Imm) (f : Word → Word → Word) : ∃ t, s.aluImm dst imm f = .next t ∧ Effect i s t := by
  rcases withReg_cases s dst fun d => s.finish d (f (s.reg d) (immOperand imm)) with ⟨d, -, h⟩ | ⟨hf, h⟩
  · exact ⟨_, h, .reg d _ _ hp hs hx⟩
  · exact ⟨_, h, .fault (.badRegister (.inl hd) hf)⟩

theorem aluUnary_effect {dst : RegField} (hd : i.dst? = some dst) (hp : PcNext i s (s.pc + 1#64)) (hs : i.isStore = false)
    (hx : i ≠ .exit) (f : Word → Word) : ∃ t, s.aluUnary dst f = .next t ∧ Effect i s t := by
  rcases withReg_cases s dst fun d => s.finish d (f (s.reg d)) with ⟨d, -, h⟩ | ⟨hf, h⟩
  · exact ⟨_, h, .reg d _ _ hp hs hx⟩
  · exact ⟨_, h, .fault (.badRegister (.inl hd) hf)⟩

theorem aluReg_effect {dst src : RegField} (hd : i.dst? = some dst) (he : i.src? = some src)
    (hp : PcNext i s (s.pc + 1#64)) (hs : i.isStore = false) (hx : i ≠ .exit) (f : Word → Word → Word) :
    ∃ t, s.aluReg dst src f = .next t ∧ Effect i s t := by
  rcases withRegs_cases s dst src fun d r => s.finish d (f (s.reg d) (s.reg r)) with
    ⟨d, e, -, -, h⟩ | ⟨hf, h⟩ | ⟨-, hf, h⟩
  · exact ⟨_, h, .reg d _ _ hp hs hx⟩
  · exact ⟨_, h, .fault (.badRegister (.inl hd) hf)⟩
  · exact ⟨_, h, .fault (.badRegister (.inr he) hf)⟩

theorem divide_effect (hv : i.divides = true) (hp : PcNext i s (s.pc + 1#64)) (hs : i.isStore = false) (hx : i ≠ .exit)
    (d : RegIdx) (b : Word) (f : Word → Word → Word) : ∃ t, s.divide d b f = .next t ∧ Effect i s t := by
  rcases divide_cases s d b f with ⟨-, h⟩ | ⟨-, h⟩
  · exact ⟨_, h, .reg d _ _ hp hs hx⟩
  · exact ⟨_, h, .fault (.zeroDivisor hv)⟩

theorem divImm_effect {dst : RegField} (hd : i.dst? = some dst) (hv : i.divides = true) (hp : PcNext i s (s.pc + 1#64))
    (hs : i.isStore = false) (hx : i ≠ .exit) (imm : Imm) (f : Word → Word → Word) :
    ∃ t, (s.withReg dst fun d => s.divide d (immOperand imm) f) = .next t ∧ Effect i s t := by
  rcases withReg_cases s dst fun d => s.divide d (immOperand imm) f with ⟨d, -, h⟩ | ⟨hf, h⟩
  · rw [h]; exact divide_effect hv hp hs hx d _ f
  · exact ⟨_, h, .fault (.badRegister (.inl hd) hf)⟩

theorem divReg_effect {dst src : RegField} (hd : i.dst? = some dst) (he : i.src? = some src) (hv : i.divides = true)
    (hp : PcNext i s (s.pc + 1#64)) (hs : i.isStore = false) (hx : i ≠ .exit) (f : Word → Word → Word) :
    ∃ t, (s.withRegs dst src fun d r => s.divide d (s.reg r) f) = .next t ∧ Effect i s t := by
  rcases withRegs_cases s dst src fun d r => s.divide d (s.reg r) f with ⟨d, e, -, -, h⟩ | ⟨hf, h⟩ | ⟨-, hf, h⟩
  · rw [h]; exact divide_effect hv hp hs hx d _ f
  · exact ⟨_, h, .fault (.badRegister (.inl hd) hf)⟩
  · exact ⟨_, h, .fault (.badRegister (.inr he) hf)⟩

theorem load_effect {dst src : RegField} (hd : i.dst? = some dst) (he : i.src? = some src) (hl : i.isLoad = true)
    (hp : PcNext i s (s.pc + 1#64)) (hs : i.isStore = false) (hx : i ≠ .exit) (offset : Offset) (n : Nat)
    (widen : BitVec (8 * n) → Word) : ∃ t, s.load dst src offset n widen = .next t ∧ Effect i s t := by
  rcases withRegs_cases s dst src fun d b => s.memRead (s.effectiveAddress b offset) n fun v => s.finish d (widen v) with
    ⟨d, b, -, -, h⟩ | ⟨hf, h⟩ | ⟨-, hf, h⟩
  · rcases memRead_cases s (s.effectiveAddress b offset) n fun v => s.finish d (widen v) with ⟨-, h'⟩ | ⟨-, h'⟩
    · exact ⟨_, h.trans h', .reg d _ _ hp hs hx⟩
    · exact ⟨_, h.trans h', .fault (.outOfBounds (.inl hl))⟩
  · exact ⟨_, h, .fault (.badRegister (.inl hd) hf)⟩
  · exact ⟨_, h, .fault (.badRegister (.inr he) hf)⟩

theorem store_effect (hs : i.isStore = true) (hp : PcNext i s (s.pc + 1#64)) (b : RegIdx) (offset : Offset) (n : Nat)
    (v : BitVec (8 * n)) : ∃ t, s.store b offset n v = .next t ∧ Effect i s t := by
  rcases store_cases s b offset n v with ⟨⟨h0, h1⟩, h⟩ | ⟨-, h⟩
  · exact ⟨_, h, .store _ n v hs (by omega) hp⟩
  · exact ⟨_, h, .fault (.outOfBounds (.inr hs))⟩

theorem storeImm_effect {dst : RegField} (hd : i.dst? = some dst) (hs : i.isStore = true) (hp : PcNext i s (s.pc + 1#64))
    (offset : Offset) (n : Nat) (v : BitVec (8 * n)) :
    ∃ t, (s.withReg dst fun b => s.store b offset n v) = .next t ∧ Effect i s t := by
  rcases withReg_cases s dst fun b => s.store b offset n v with ⟨b, -, h⟩ | ⟨hf, h⟩
  · rw [h]; exact store_effect hs hp b offset n v
  · exact ⟨_, h, .fault (.badRegister (.inl hd) hf)⟩

theorem storeReg_effect {dst src : RegField} (hd : i.dst? = some dst) (he : i.src? = some src) (hs : i.isStore = true)
    (hp : PcNext i s (s.pc + 1#64)) (offset : Offset) (n : Nat) (f : Word → BitVec (8 * n)) :
    ∃ t, (s.withRegs dst src fun b r => s.store b offset n (f (s.reg r))) = .next t ∧ Effect i s t := by
  rcases withRegs_cases s dst src fun b r => s.store b offset n (f (s.reg r)) with ⟨b, r, -, -, h⟩ | ⟨hf, h⟩ | ⟨-, hf, h⟩
  · rw [h]; exact store_effect hs hp b offset n _
  · exact ⟨_, h, .fault (.badRegister (.inl hd) hf)⟩
  · exact ⟨_, h, .fault (.badRegister (.inr he) hf)⟩

theorem branch_effect {offset : Offset} (h1 : PcNext i s (s.pc + 1#64)) (h2 : PcNext i s (s.pc + offset.signExtend 64))
    (hs : i.isStore = false) (hx : i ≠ .exit) (p : Bool) : ∃ t, s.branch p offset = .next t ∧ Effect i s t := by
  rcases branch_cases s p offset with ⟨-, h⟩ | ⟨-, h⟩
  · exact ⟨_, h, .jump _ h2 hs hx⟩
  · exact ⟨_, h, .jump _ h1 hs hx⟩

theorem jumpImm_effect {dst : RegField} {offset : Offset} (hd : i.dst? = some dst) (h1 : PcNext i s (s.pc + 1#64))
    (h2 : PcNext i s (s.pc + offset.signExtend 64)) (hs : i.isStore = false) (hx : i ≠ .exit) (imm : Imm)
    (p : Word → Word → Bool) : ∃ t, s.jumpImm dst imm offset p = .next t ∧ Effect i s t := by
  rcases withReg_cases s dst fun d => s.branch (p (s.reg d) (immOperand imm)) offset with ⟨d, -, h⟩ | ⟨hf, h⟩
  · rw [State.jumpImm, h]; exact branch_effect h1 h2 hs hx _
  · exact ⟨_, h, .fault (.badRegister (.inl hd) hf)⟩

theorem jumpReg_effect {dst src : RegField} {offset : Offset} (hd : i.dst? = some dst) (he : i.src? = some src)
    (h1 : PcNext i s (s.pc + 1#64)) (h2 : PcNext i s (s.pc + offset.signExtend 64)) (hs : i.isStore = false)
    (hx : i ≠ .exit) (p : Word → Word → Bool) : ∃ t, s.jumpReg dst src offset p = .next t ∧ Effect i s t := by
  rcases withRegs_cases s dst src fun d r => s.branch (p (s.reg d) (s.reg r)) offset with
    ⟨d, e, -, -, h⟩ | ⟨hf, h⟩ | ⟨-, hf, h⟩
  · rw [State.jumpReg, h]; exact branch_effect h1 h2 hs hx _
  · exact ⟨_, h, .fault (.badRegister (.inl hd) hf)⟩
  · exact ⟨_, h, .fault (.badRegister (.inr he) hf)⟩

theorem lddw_effect (dst : RegField) (lo : Imm) (hi : Option Imm) (s : State) :
    ∃ t, execLddw dst lo hi s = .next t ∧ Effect (.lddw dst lo hi) s t := by
  cases hi with
  | none =>
    rcases withReg_cases s dst fun _ => .next (s.raise .programCounterOutOfRange 0#64) with ⟨d, -, h⟩ | ⟨hf, h⟩
    · exact ⟨_, h, .fault (.noSecondSlot rfl)⟩
    · exact ⟨_, h, .fault (.badRegister (.inl rfl) hf)⟩
  | some q =>
    rcases withReg_cases s dst fun d => .next ((s.setReg d (q ++ lo)).setPc (s.pc + 2#64)) with ⟨d, -, h⟩ | ⟨hf, h⟩
    · exact ⟨_, h, .reg d _ _ ⟨by simp, rfl⟩ rfl (by simp)⟩
    · exact ⟨_, h, .fault (.badRegister (.inl rfl) hf)⟩

/-- Every instruction answers a next state, and that state is one of the five kinds. -/
theorem exec_effect (i : Instr) (s : State) : ∃ t, exec i s = .next t ∧ Effect i s t := by
  cases i with
  | addImm dst imm => exact aluImm_effect (i := .addImm dst imm) (s := s) rfl rfl rfl (by simp) imm _
  | addReg dst src => exact aluReg_effect (i := .addReg dst src) (s := s) rfl rfl rfl rfl (by simp) _
  | subImm dst imm => exact aluImm_effect (i := .subImm dst imm) (s := s) rfl rfl rfl (by simp) imm _
  | subReg dst src => exact aluReg_effect (i := .subReg dst src) (s := s) rfl rfl rfl rfl (by simp) _
  | mulImm dst imm => exact aluImm_effect (i := .mulImm dst imm) (s := s) rfl rfl rfl (by simp) imm _
  | mulReg dst src => exact aluReg_effect (i := .mulReg dst src) (s := s) rfl rfl rfl rfl (by simp) _
  | divImm dst imm => exact divImm_effect (i := .divImm dst imm) (s := s) rfl rfl rfl rfl (by simp) imm _
  | divReg dst src => exact divReg_effect (i := .divReg dst src) (s := s) rfl rfl rfl rfl rfl (by simp) _
  | orImm dst imm => exact aluImm_effect (i := .orImm dst imm) (s := s) rfl rfl rfl (by simp) imm _
  | orReg dst src => exact aluReg_effect (i := .orReg dst src) (s := s) rfl rfl rfl rfl (by simp) _
  | andImm dst imm => exact aluImm_effect (i := .andImm dst imm) (s := s) rfl rfl rfl (by simp) imm _
  | andReg dst src => exact aluReg_effect (i := .andReg dst src) (s := s) rfl rfl rfl rfl (by simp) _
  | lshImm dst imm => exact aluImm_effect (i := .lshImm dst imm) (s := s) rfl rfl rfl (by simp) imm _
  | lshReg dst src => exact aluReg_effect (i := .lshReg dst src) (s := s) rfl rfl rfl rfl (by simp) _
  | rshImm dst imm => exact aluImm_effect (i := .rshImm dst imm) (s := s) rfl rfl rfl (by simp) imm _
  | rshReg dst src => exact aluReg_effect (i := .rshReg dst src) (s := s) rfl rfl rfl rfl (by simp) _
  | negImm dst => exact aluUnary_effect (i := .negImm dst) (s := s) rfl rfl rfl (by simp) _
  | negReg dst => exact aluUnary_effect (i := .negReg dst) (s := s) rfl rfl rfl (by simp) _
  | modImm dst imm => exact divImm_effect (i := .modImm dst imm) (s := s) rfl rfl rfl rfl (by simp) imm _
  | modReg dst src => exact divReg_effect (i := .modReg dst src) (s := s) rfl rfl rfl rfl rfl (by simp) _
  | xorImm dst imm => exact aluImm_effect (i := .xorImm dst imm) (s := s) rfl rfl rfl (by simp) imm _
  | xorReg dst src => exact aluReg_effect (i := .xorReg dst src) (s := s) rfl rfl rfl rfl (by simp) _
  | movImm dst imm => exact aluImm_effect (i := .movImm dst imm) (s := s) rfl rfl rfl (by simp) imm _
  | movReg dst src => exact aluReg_effect (i := .movReg dst src) (s := s) rfl rfl rfl rfl (by simp) _
  | arshImm dst imm => exact aluImm_effect (i := .arshImm dst imm) (s := s) rfl rfl rfl (by simp) imm _
  | arshReg dst src => exact aluReg_effect (i := .arshReg dst src) (s := s) rfl rfl rfl rfl (by simp) _
  | lddw dst lo hi => exact lddw_effect dst lo hi s
  | ldxw dst src offset => exact load_effect (i := .ldxw dst src offset) (s := s) rfl rfl rfl rfl rfl (by simp) offset _ _
  | ldxh dst src offset => exact load_effect (i := .ldxh dst src offset) (s := s) rfl rfl rfl rfl rfl (by simp) offset _ _
  | ldxb dst src offset => exact load_effect (i := .ldxb dst src offset) (s := s) rfl rfl rfl rfl rfl (by simp) offset _ _
  | ldxdw dst src offset => exact load_effect (i := .ldxdw dst src offset) (s := s) rfl rfl rfl rfl rfl (by simp) offset _ _
  | stw dst offset imm => exact storeImm_effect (i := .stw dst offset imm) (s := s) rfl rfl rfl offset _ _
  | sth dst offset imm => exact storeImm_effect (i := .sth dst offset imm) (s := s) rfl rfl rfl offset _ _
  | stb dst offset imm => exact storeImm_effect (i := .stb dst offset imm) (s := s) rfl rfl rfl offset _ _
  | stdw dst offset imm => exact storeImm_effect (i := .stdw dst offset imm) (s := s) rfl rfl rfl offset _ _
  | stxw dst src offset => exact storeReg_effect (i := .stxw dst src offset) (s := s) rfl rfl rfl rfl offset _ fun v => v.setWidth _
  | stxh dst src offset => exact storeReg_effect (i := .stxh dst src offset) (s := s) rfl rfl rfl rfl offset _ fun v => v.setWidth _
  | stxb dst src offset => exact storeReg_effect (i := .stxb dst src offset) (s := s) rfl rfl rfl rfl offset _ fun v => v.setWidth _
  | stxdw dst src offset => exact storeReg_effect (i := .stxdw dst src offset) (s := s) rfl rfl rfl rfl offset _ fun v => v.setWidth _
  | ja offset => exact ⟨_, rfl, .jump _ rfl rfl (by simp)⟩
  | jeqImm dst imm offset => exact jumpImm_effect (i := .jeqImm dst imm offset) (s := s) rfl (.inl rfl) (.inr rfl) rfl (by simp) imm _
  | jeqReg dst src offset => exact jumpReg_effect (i := .jeqReg dst src offset) (s := s) rfl rfl (.inl rfl) (.inr rfl) rfl (by simp) _
  | jgtImm dst imm offset => exact jumpImm_effect (i := .jgtImm dst imm offset) (s := s) rfl (.inl rfl) (.inr rfl) rfl (by simp) imm _
  | jgtReg dst src offset => exact jumpReg_effect (i := .jgtReg dst src offset) (s := s) rfl rfl (.inl rfl) (.inr rfl) rfl (by simp) _
  | jgeImm dst imm offset => exact jumpImm_effect (i := .jgeImm dst imm offset) (s := s) rfl (.inl rfl) (.inr rfl) rfl (by simp) imm _
  | jgeReg dst src offset => exact jumpReg_effect (i := .jgeReg dst src offset) (s := s) rfl rfl (.inl rfl) (.inr rfl) rfl (by simp) _
  | jsetImm dst imm offset => exact jumpImm_effect (i := .jsetImm dst imm offset) (s := s) rfl (.inl rfl) (.inr rfl) rfl (by simp) imm _
  | jsetReg dst src offset => exact jumpReg_effect (i := .jsetReg dst src offset) (s := s) rfl rfl (.inl rfl) (.inr rfl) rfl (by simp) _
  | jneImm dst imm offset => exact jumpImm_effect (i := .jneImm dst imm offset) (s := s) rfl (.inl rfl) (.inr rfl) rfl (by simp) imm _
  | jneReg dst src offset => exact jumpReg_effect (i := .jneReg dst src offset) (s := s) rfl rfl (.inl rfl) (.inr rfl) rfl (by simp) _
  | jsgtImm dst imm offset => exact jumpImm_effect (i := .jsgtImm dst imm offset) (s := s) rfl (.inl rfl) (.inr rfl) rfl (by simp) imm _
  | jsgtReg dst src offset => exact jumpReg_effect (i := .jsgtReg dst src offset) (s := s) rfl rfl (.inl rfl) (.inr rfl) rfl (by simp) _
  | jsgeImm dst imm offset => exact jumpImm_effect (i := .jsgeImm dst imm offset) (s := s) rfl (.inl rfl) (.inr rfl) rfl (by simp) imm _
  | jsgeReg dst src offset => exact jumpReg_effect (i := .jsgeReg dst src offset) (s := s) rfl rfl (.inl rfl) (.inr rfl) rfl (by simp) _
  | jltImm dst imm offset => exact jumpImm_effect (i := .jltImm dst imm offset) (s := s) rfl (.inl rfl) (.inr rfl) rfl (by simp) imm _
  | jltReg dst src offset => exact jumpReg_effect (i := .jltReg dst src offset) (s := s) rfl rfl (.inl rfl) (.inr rfl) rfl (by simp) _
  | jleImm dst imm offset => exact jumpImm_effect (i := .jleImm dst imm offset) (s := s) rfl (.inl rfl) (.inr rfl) rfl (by simp) imm _
  | jleReg dst src offset => exact jumpReg_effect (i := .jleReg dst src offset) (s := s) rfl rfl (.inl rfl) (.inr rfl) rfl (by simp) _
  | jsltImm dst imm offset => exact jumpImm_effect (i := .jsltImm dst imm offset) (s := s) rfl (.inl rfl) (.inr rfl) rfl (by simp) imm _
  | jsltReg dst src offset => exact jumpReg_effect (i := .jsltReg dst src offset) (s := s) rfl rfl (.inl rfl) (.inr rfl) rfl (by simp) _
  | jsleImm dst imm offset => exact jumpImm_effect (i := .jsleImm dst imm offset) (s := s) rfl (.inl rfl) (.inr rfl) rfl (by simp) imm _
  | jsleReg dst src offset => exact jumpReg_effect (i := .jsleReg dst src offset) (s := s) rfl rfl (.inl rfl) (.inr rfl) rfl (by simp) _
  | call offset => exact ⟨_, rfl, .reg _ _ _ rfl rfl (by simp)⟩
  | exit => exact ⟨_, rfl, .exit rfl⟩

/-- The state an instruction answers is one of the five kinds. -/
theorem effect_of_exec {i : Instr} {s t : State} (h : exec i s = .next t) : Effect i s t := by
  obtain ⟨t', h', he⟩ := exec_effect i s
  cases h.symm.trans h'
  exact he

/-- No instruction changes a parameter of the run (R9). -/
theorem Effect.sameRun {t : State} (h : Effect i s t) : SameRun s t := by
  cases h <;> exact ⟨rfl, rfl, rfl⟩

end Sys2Proof.Machine
end

