-- ==== Sys2Proof/Laws/Launch.lean ====
section
/-! SUPPORT. What the host's read-out holds, and what the result transaction can answer. -/

namespace Sys2Proof.Machine

@[simp] theorem readOut_status (s : State) : s.readOut.status = s.status := rfl
@[simp] theorem readOut_faultKind (s : State) : s.readOut.faultKind = s.faultKind := rfl
@[simp] theorem readOut_faultIndex (s : State) : s.readOut.faultIndex = s.faultIndex := rfl
@[simp] theorem readOut_faultInfo (s : State) : s.readOut.faultInfo = s.faultInfo := rfl
@[simp] theorem readOut_regs (s : State) : s.readOut.regs = s.regs := rfl
@[simp] theorem readOut_pc (s : State) : s.readOut.pc = s.pc := rfl
@[simp] theorem readOut_mem (s : State) : s.readOut.mem = s.mem := rfl

/-- The result transaction answers nothing while RUNNING and the state's read-out in both terminal states (R8, R202). -/
theorem result_cases (s : State) :
    (s.status = .running ∧ result s = none) ∨ (s.status ≠ .running ∧ result s = some s.readOut) := by
  unfold result
  cases s.status <;> simp

end Sys2Proof.Machine
end

