-- ==== Sys2Proof/Laws/PerInstr.lean ====
section
/-! SUPPORT. Facts said of every instruction as syntax, one lemma for each constructor (LAWS.json). -/

namespace Sys2Proof.Laws

/-- The shape of an instruction's bytes: they begin with its opcode byte, which is a known one; their number is 8, or 16 with a second
slot (R50, R58, R62). -/
def EncodeShape.Statement (i : Instr) : Prop :=
  (encode i).head? = some (opcodeOf i) ∧ opcodeOf i ∈ knownOpcodes ∧
    (encode i).length = 8 * (if i.nextImm?.isSome then 2 else 1)

theorem EncodeShape.addImm (dst : RegField) (imm : Imm) : EncodeShape.Statement (.addImm dst imm) := ⟨rfl, (by decide : 0x07#8 ∈ knownOpcodes), rfl⟩
theorem EncodeShape.addReg (dst : RegField) (src : RegField) : EncodeShape.Statement (.addReg dst src) := ⟨rfl, (by decide : 0x0f#8 ∈ knownOpcodes), rfl⟩
theorem EncodeShape.subImm (dst : RegField) (imm : Imm) : EncodeShape.Statement (.subImm dst imm) := ⟨rfl, (by decide : 0x17#8 ∈ knownOpcodes), rfl⟩
theorem EncodeShape.subReg (dst : RegField) (src : RegField) : EncodeShape.Statement (.subReg dst src) := ⟨rfl, (by decide : 0x1f#8 ∈ knownOpcodes), rfl⟩
theorem EncodeShape.mulImm (dst : RegField) (imm : Imm) : EncodeShape.Statement (.mulImm dst imm) := ⟨rfl, (by decide : 0x27#8 ∈ knownOpcodes), rfl⟩
theorem EncodeShape.mulReg (dst : RegField) (src : RegField) : EncodeShape.Statement (.mulReg dst src) := ⟨rfl, (by decide : 0x2f#8 ∈ knownOpcodes), rfl⟩
theorem EncodeShape.divImm (dst : RegField) (imm : Imm) : EncodeShape.Statement (.divImm dst imm) := ⟨rfl, (by decide : 0x37#8 ∈ knownOpcodes), rfl⟩
theorem EncodeShape.divReg (dst : RegField) (src : RegField) : EncodeShape.Statement (.divReg dst src) := ⟨rfl, (by decide : 0x3f#8 ∈ knownOpcodes), rfl⟩
theorem EncodeShape.orImm (dst : RegField) (imm : Imm) : EncodeShape.Statement (.orImm dst imm) := ⟨rfl, (by decide : 0x47#8 ∈ knownOpcodes), rfl⟩
theorem EncodeShape.orReg (dst : RegField) (src : RegField) : EncodeShape.Statement (.orReg dst src) := ⟨rfl, (by decide : 0x4f#8 ∈ knownOpcodes), rfl⟩
theorem EncodeShape.andImm (dst : RegField) (imm : Imm) : EncodeShape.Statement (.andImm dst imm) := ⟨rfl, (by decide : 0x57#8 ∈ knownOpcodes), rfl⟩
theorem EncodeShape.andReg (dst : RegField) (src : RegField) : EncodeShape.Statement (.andReg dst src) := ⟨rfl, (by decide : 0x5f#8 ∈ knownOpcodes), rfl⟩
theorem EncodeShape.lshImm (dst : RegField) (imm : Imm) : EncodeShape.Statement (.lshImm dst imm) := ⟨rfl, (by decide : 0x67#8 ∈ knownOpcodes), rfl⟩
theorem EncodeShape.lshReg (dst : RegField) (src : RegField) : EncodeShape.Statement (.lshReg dst src) := ⟨rfl, (by decide : 0x6f#8 ∈ knownOpcodes), rfl⟩
theorem EncodeShape.rshImm (dst : RegField) (imm : Imm) : EncodeShape.Statement (.rshImm dst imm) := ⟨rfl, (by decide : 0x77#8 ∈ knownOpcodes), rfl⟩
theorem EncodeShape.rshReg (dst : RegField) (src : RegField) : EncodeShape.Statement (.rshReg dst src) := ⟨rfl, (by decide : 0x7f#8 ∈ knownOpcodes), rfl⟩
theorem EncodeShape.negImm (dst : RegField) : EncodeShape.Statement (.negImm dst) := ⟨rfl, (by decide : 0x87#8 ∈ knownOpcodes), rfl⟩
theorem EncodeShape.negReg (dst : RegField) : EncodeShape.Statement (.negReg dst) := ⟨rfl, (by decide : 0x8f#8 ∈ knownOpcodes), rfl⟩
theorem EncodeShape.modImm (dst : RegField) (imm : Imm) : EncodeShape.Statement (.modImm dst imm) := ⟨rfl, (by decide : 0x97#8 ∈ knownOpcodes), rfl⟩
theorem EncodeShape.modReg (dst : RegField) (src : RegField) : EncodeShape.Statement (.modReg dst src) := ⟨rfl, (by decide : 0x9f#8 ∈ knownOpcodes), rfl⟩
theorem EncodeShape.xorImm (dst : RegField) (imm : Imm) : EncodeShape.Statement (.xorImm dst imm) := ⟨rfl, (by decide : 0xa7#8 ∈ knownOpcodes), rfl⟩
theorem EncodeShape.xorReg (dst : RegField) (src : RegField) : EncodeShape.Statement (.xorReg dst src) := ⟨rfl, (by decide : 0xaf#8 ∈ knownOpcodes), rfl⟩
theorem EncodeShape.movImm (dst : RegField) (imm : Imm) : EncodeShape.Statement (.movImm dst imm) := ⟨rfl, (by decide : 0xb7#8 ∈ knownOpcodes), rfl⟩
theorem EncodeShape.movReg (dst : RegField) (src : RegField) : EncodeShape.Statement (.movReg dst src) := ⟨rfl, (by decide : 0xbf#8 ∈ knownOpcodes), rfl⟩
theorem EncodeShape.arshImm (dst : RegField) (imm : Imm) : EncodeShape.Statement (.arshImm dst imm) := ⟨rfl, (by decide : 0xc7#8 ∈ knownOpcodes), rfl⟩
theorem EncodeShape.arshReg (dst : RegField) (src : RegField) : EncodeShape.Statement (.arshReg dst src) := ⟨rfl, (by decide : 0xcf#8 ∈ knownOpcodes), rfl⟩
theorem EncodeShape.lddw (dst : RegField) (lo : Imm) (hi : Option Imm) : EncodeShape.Statement (.lddw dst lo hi) := ⟨rfl, (by decide : 0x18#8 ∈ knownOpcodes), by cases hi <;> rfl⟩
theorem EncodeShape.ldxw (dst : RegField) (src : RegField) (offset : Offset) : EncodeShape.Statement (.ldxw dst src offset) := ⟨rfl, (by decide : 0x61#8 ∈ knownOpcodes), rfl⟩
theorem EncodeShape.ldxh (dst : RegField) (src : RegField) (offset : Offset) : EncodeShape.Statement (.ldxh dst src offset) := ⟨rfl, (by decide : 0x69#8 ∈ knownOpcodes), rfl⟩
theorem EncodeShape.ldxb (dst : RegField) (src : RegField) (offset : Offset) : EncodeShape.Statement (.ldxb dst src offset) := ⟨rfl, (by decide : 0x71#8 ∈ knownOpcodes), rfl⟩
theorem EncodeShape.ldxdw (dst : RegField) (src : RegField) (offset : Offset) : EncodeShape.Statement (.ldxdw dst src offset) := ⟨rfl, (by decide : 0x79#8 ∈ knownOpcodes), rfl⟩
theorem EncodeShape.stw (dst : RegField) (offset : Offset) (imm : Imm) : EncodeShape.Statement (.stw dst offset imm) := ⟨rfl, (by decide : 0x62#8 ∈ knownOpcodes), rfl⟩
theorem EncodeShape.sth (dst : RegField) (offset : Offset) (imm : Imm) : EncodeShape.Statement (.sth dst offset imm) := ⟨rfl, (by decide : 0x6a#8 ∈ knownOpcodes), rfl⟩
theorem EncodeShape.stb (dst : RegField) (offset : Offset) (imm : Imm) : EncodeShape.Statement (.stb dst offset imm) := ⟨rfl, (by decide : 0x72#8 ∈ knownOpcodes), rfl⟩
theorem EncodeShape.stdw (dst : RegField) (offset : Offset) (imm : Imm) : EncodeShape.Statement (.stdw dst offset imm) := ⟨rfl, (by decide : 0x7a#8 ∈ knownOpcodes), rfl⟩
theorem EncodeShape.stxw (dst : RegField) (src : RegField) (offset : Offset) : EncodeShape.Statement (.stxw dst src offset) := ⟨rfl, (by decide : 0x63#8 ∈ knownOpcodes), rfl⟩
theorem EncodeShape.stxh (dst : RegField) (src : RegField) (offset : Offset) : EncodeShape.Statement (.stxh dst src offset) := ⟨rfl, (by decide : 0x6b#8 ∈ knownOpcodes), rfl⟩
theorem EncodeShape.stxb (dst : RegField) (src : RegField) (offset : Offset) : EncodeShape.Statement (.stxb dst src offset) := ⟨rfl, (by decide : 0x73#8 ∈ knownOpcodes), rfl⟩
theorem EncodeShape.stxdw (dst : RegField) (src : RegField) (offset : Offset) : EncodeShape.Statement (.stxdw dst src offset) := ⟨rfl, (by decide : 0x7b#8 ∈ knownOpcodes), rfl⟩
theorem EncodeShape.ja (offset : Offset) : EncodeShape.Statement (.ja offset) := ⟨rfl, (by decide : 0x05#8 ∈ knownOpcodes), rfl⟩
theorem EncodeShape.jeqImm (dst : RegField) (imm : Imm) (offset : Offset) : EncodeShape.Statement (.jeqImm dst imm offset) := ⟨rfl, (by decide : 0x15#8 ∈ knownOpcodes), rfl⟩
theorem EncodeShape.jeqReg (dst : RegField) (src : RegField) (offset : Offset) : EncodeShape.Statement (.jeqReg dst src offset) := ⟨rfl, (by decide : 0x1d#8 ∈ knownOpcodes), rfl⟩
theorem EncodeShape.jgtImm (dst : RegField) (imm : Imm) (offset : Offset) : EncodeShape.Statement (.jgtImm dst imm offset) := ⟨rfl, (by decide : 0x25#8 ∈ knownOpcodes), rfl⟩
theorem EncodeShape.jgtReg (dst : RegField) (src : RegField) (offset : Offset) : EncodeShape.Statement (.jgtReg dst src offset) := ⟨rfl, (by decide : 0x2d#8 ∈ knownOpcodes), rfl⟩
theorem EncodeShape.jgeImm (dst : RegField) (imm : Imm) (offset : Offset) : EncodeShape.Statement (.jgeImm dst imm offset) := ⟨rfl, (by decide : 0x35#8 ∈ knownOpcodes), rfl⟩
theorem EncodeShape.jgeReg (dst : RegField) (src : RegField) (offset : Offset) : EncodeShape.Statement (.jgeReg dst src offset) := ⟨rfl, (by decide : 0x3d#8 ∈ knownOpcodes), rfl⟩
theorem EncodeShape.jsetImm (dst : RegField) (imm : Imm) (offset : Offset) : EncodeShape.Statement (.jsetImm dst imm offset) := ⟨rfl, (by decide : 0x45#8 ∈ knownOpcodes), rfl⟩
theorem EncodeShape.jsetReg (dst : RegField) (src : RegField) (offset : Offset) : EncodeShape.Statement (.jsetReg dst src offset) := ⟨rfl, (by decide : 0x4d#8 ∈ knownOpcodes), rfl⟩
theorem EncodeShape.jneImm (dst : RegField) (imm : Imm) (offset : Offset) : EncodeShape.Statement (.jneImm dst imm offset) := ⟨rfl, (by decide : 0x55#8 ∈ knownOpcodes), rfl⟩
theorem EncodeShape.jneReg (dst : RegField) (src : RegField) (offset : Offset) : EncodeShape.Statement (.jneReg dst src offset) := ⟨rfl, (by decide : 0x5d#8 ∈ knownOpcodes), rfl⟩
theorem EncodeShape.jsgtImm (dst : RegField) (imm : Imm) (offset : Offset) : EncodeShape.Statement (.jsgtImm dst imm offset) := ⟨rfl, (by decide : 0x65#8 ∈ knownOpcodes), rfl⟩
theorem EncodeShape.jsgtReg (dst : RegField) (src : RegField) (offset : Offset) : EncodeShape.Statement (.jsgtReg dst src offset) := ⟨rfl, (by decide : 0x6d#8 ∈ knownOpcodes), rfl⟩
theorem EncodeShape.jsgeImm (dst : RegField) (imm : Imm) (offset : Offset) : EncodeShape.Statement (.jsgeImm dst imm offset) := ⟨rfl, (by decide : 0x75#8 ∈ knownOpcodes), rfl⟩
theorem EncodeShape.jsgeReg (dst : RegField) (src : RegField) (offset : Offset) : EncodeShape.Statement (.jsgeReg dst src offset) := ⟨rfl, (by decide : 0x7d#8 ∈ knownOpcodes), rfl⟩
theorem EncodeShape.jltImm (dst : RegField) (imm : Imm) (offset : Offset) : EncodeShape.Statement (.jltImm dst imm offset) := ⟨rfl, (by decide : 0xa5#8 ∈ knownOpcodes), rfl⟩
theorem EncodeShape.jltReg (dst : RegField) (src : RegField) (offset : Offset) : EncodeShape.Statement (.jltReg dst src offset) := ⟨rfl, (by decide : 0xad#8 ∈ knownOpcodes), rfl⟩
theorem EncodeShape.jleImm (dst : RegField) (imm : Imm) (offset : Offset) : EncodeShape.Statement (.jleImm dst imm offset) := ⟨rfl, (by decide : 0xb5#8 ∈ knownOpcodes), rfl⟩
theorem EncodeShape.jleReg (dst : RegField) (src : RegField) (offset : Offset) : EncodeShape.Statement (.jleReg dst src offset) := ⟨rfl, (by decide : 0xbd#8 ∈ knownOpcodes), rfl⟩
theorem EncodeShape.jsltImm (dst : RegField) (imm : Imm) (offset : Offset) : EncodeShape.Statement (.jsltImm dst imm offset) := ⟨rfl, (by decide : 0xc5#8 ∈ knownOpcodes), rfl⟩
theorem EncodeShape.jsltReg (dst : RegField) (src : RegField) (offset : Offset) : EncodeShape.Statement (.jsltReg dst src offset) := ⟨rfl, (by decide : 0xcd#8 ∈ knownOpcodes), rfl⟩
theorem EncodeShape.jsleImm (dst : RegField) (imm : Imm) (offset : Offset) : EncodeShape.Statement (.jsleImm dst imm offset) := ⟨rfl, (by decide : 0xd5#8 ∈ knownOpcodes), rfl⟩
theorem EncodeShape.jsleReg (dst : RegField) (src : RegField) (offset : Offset) : EncodeShape.Statement (.jsleReg dst src offset) := ⟨rfl, (by decide : 0xdd#8 ∈ knownOpcodes), rfl⟩
theorem EncodeShape.call (offset : Offset) : EncodeShape.Statement (.call offset) := ⟨rfl, (by decide : 0x85#8 ∈ knownOpcodes), rfl⟩
theorem EncodeShape.exit : EncodeShape.Statement (.exit) := ⟨rfl, (by decide : 0x95#8 ∈ knownOpcodes), rfl⟩

end Sys2Proof.Laws
end

