-- ==== Sys2Proof/Laws/Step.lean ====
section
/-! SUPPORT. What a fetch and a step can do, said once (spec 40_execution_cycle.md R71). -/

namespace Sys2Proof.Machine

/-- The program store has no record exactly outside `0 <= k < N` (R71). -/
theorem insnAt_eq_none_iff (s : State) (k : Int) : s.insnAt k = none ↔ k < 0 ∨ (s.prog.length : Int) ≤ k := by
  unfold State.insnAt
  split
  · simp [*]
  · simp; omega

/-- A record found stands inside the program store. -/
theorem insnAt_eq_some {s : State} {k : Int} {r : Record} (h : s.insnAt k = some r) : 0 ≤ k ∧ k < s.prog.length := by
  have := mt (insnAt_eq_none_iff s k).mpr (by simp [h])
  omega

/-- The record at an index of the program store. -/
theorem insnAt_of_nonneg (s : State) {k : Int} (h : 0 ≤ k) : s.insnAt k = s.prog[k.toNat]? := by
  simp [State.insnAt]; omega

/-- All that can come of a fetch. -/
theorem fetch_cases (s : State) :
    (s.insnAt s.pc.toInt = none ∧ fetch s = .error (s.raise .programCounterOutOfRange 0#64)) ∨
    (∃ r opcode, s.insnAt s.pc.toInt = some r ∧
      decode r (s.insnAt (s.pc.toInt + 1)) = .error (.unknownOpcode opcode) ∧
      fetch s = .error (s.raise .unknownOpcode (opcode.setWidth 64))) ∨
    (∃ r i, s.insnAt s.pc.toInt = some r ∧ decode r (s.insnAt (s.pc.toInt + 1)) = .ok i ∧ fetch s = .ok i) := by
  cases hr : s.insnAt s.pc.toInt with
  | none => exact .inl ⟨rfl, by simp [fetch, hr]⟩
  | some r =>
    cases hd : decode r (s.insnAt (s.pc.toInt + 1)) with
    | error e =>
      obtain ⟨opcode⟩ := e
      exact .inr (.inl ⟨r, opcode, rfl, hd, by simp [fetch, hr, hd]⟩)
    | ok i => exact .inr (.inr ⟨r, i, rfl, hd, by simp [fetch, hr, hd]⟩)

/-- A step of a running state is the fetched instruction's execution or the fault of the fetch. -/
theorem step_of_running {s : State} (h : s.status = .running) :
    step s = match fetch s with | .ok i => exec i s | .error t => .next t := by
  cases hf : fetch s <;> simp [step, h, hf]

/-- A state that is not running takes no step (R70, log entry 3). -/
theorem step_of_not_running {s : State} (h : s.status ≠ .running) : step s = .fault .notRunning := by
  unfold step
  split <;> simp_all

/-- All that can come of a step that answers a next state. -/
theorem step_cases {s t : State} (h : step s = .next t) :
    s.status = .running ∧
    ((s.insnAt s.pc.toInt = none ∧ t = s.raise .programCounterOutOfRange 0#64) ∨
     (∃ r opcode, s.insnAt s.pc.toInt = some r ∧
       decode r (s.insnAt (s.pc.toInt + 1)) = .error (.unknownOpcode opcode) ∧
       t = s.raise .unknownOpcode (opcode.setWidth 64)) ∨
     (∃ r i, s.insnAt s.pc.toInt = some r ∧ decode r (s.insnAt (s.pc.toInt + 1)) = .ok i ∧
       fetch s = .ok i ∧ exec i s = .next t)) := by
  by_cases hs : s.status = .running
  · refine ⟨hs, ?_⟩
    rw [step_of_running hs] at h
    rcases fetch_cases s with ⟨hn, hf⟩ | ⟨r, op, hr, hd, hf⟩ | ⟨r, i, hr, hd, hf⟩ <;> rw [hf] at h
    · exact .inl ⟨hn, by cases h; rfl⟩
    · exact .inr (.inl ⟨r, op, hr, hd, by cases h; rfl⟩)
    · exact .inr (.inr ⟨r, i, hr, hd, hf, h⟩)
  · rw [step_of_not_running hs] at h
    cases h

end Sys2Proof.Machine
end

