-- ==== Sys2Proof/Tests/Slice0.lean ====
section
/-! SUPPORT. The model's own tests. Expected values come from the spec: the example of each encoding and the derived vectors of
96_test_vectors_derived.md (named by their ids), the transcribed properties of 95_test_vectors.md (T2 to T9). The `witness_` theorems
show states and operands that meet the hypotheses of each statement, at boundary values. -/

namespace Sys2Proof.Tests

open Sys2Proof.Machine

/-! Helpers. -/

/-- A running machine with `bytes` in the program store from index `pc` on, `x[0]`, `x[1]`, `x[2]` and memory as given, the rest as
after reset. -/
def machine (pc : Nat) (bytes : List Byte) (x0 x1 x2 : Word) (mem : Memory := []) : State :=
  State.withSlots
    { State.reset with regs := #v[x0, x1, x2, 0, 0, 0, 0, 0, 0, 0, 0], pc := BitVec.ofNat 64 pc, mem := mem } pc (slots bytes)

/-- What `f` sees of the next state, where there is one and it is RUNNING. -/
def after {α : Type} (r : Result) (f : State → α) : Option α :=
  match r with
  | .next t => if t.status = .running then some (f t) else none
  | .fault _ => none
  | .refused _ => none

/-- Kind, index and information of the fault the answer takes, and pc after it. -/
def faultOf (r : Result) : Option (FaultKind × Word × Word × Word) :=
  match r with
  | .next t => if t.status = .faulted then some (t.faultKind, t.faultIndex, t.faultInfo, t.pc) else none
  | .fault _ => none
  | .refused _ => none

/-- The status of the next state. -/
def statusOf (r : Result) : Option RunStatus :=
  match r with
  | .next t => some t.status
  | .fault _ => none
  | .refused _ => none

/-! Well-formedness: an ill-formed term for each check, and a well-formed one beside it. -/

theorem test_wellFormed_refuses_dst : (Instr.addImm 11#4 1#32).wellFormed = false := by decide
theorem test_wellFormed_accepts_dst : (Instr.addImm 10#4 1#32).wellFormed = true := by decide
theorem test_wellFormed_refuses_src : (Instr.stxw 1#4 11#4 0#16).wellFormed = false := by decide
theorem test_wellFormed_accepts_src : (Instr.stxw 1#4 10#4 0#16).wellFormed = true := by decide
theorem test_wellFormed_refuses_truncated : (Instr.lddw 1#4 5#32 none).wellFormed = false := by decide
theorem test_wellFormed_accepts_lddw : (Instr.lddw 1#4 5#32 (some 0#32)).wellFormed = true := by decide

/-! Decoding: for every instruction, bytes the spec writes out and the assembler text it writes beside them. -/

theorem test_decode_addImm : (decodeBytes [0x07#8, 0x01#8, 0x00#8, 0x00#8, 0x09#8, 0x00#8, 0x00#8, 0x00#8]).toOption =
    some (.addImm 1#4 0x9#32) := by decide
theorem test_decode_addReg : (decodeBytes [0x0f#8, 0x21#8, 0x00#8, 0x00#8, 0x00#8, 0x00#8, 0x00#8, 0x00#8]).toOption =
    some (.addReg 1#4 2#4) := by decide
theorem test_decode_subImm : (decodeBytes [0x17#8, 0x01#8, 0x00#8, 0x00#8, 0x03#8, 0x00#8, 0x00#8, 0x00#8]).toOption =
    some (.subImm 1#4 0x3#32) := by decide
theorem test_decode_subReg : (decodeBytes [0x1f#8, 0x21#8, 0x00#8, 0x00#8, 0x00#8, 0x00#8, 0x00#8, 0x00#8]).toOption =
    some (.subReg 1#4 2#4) := by decide
theorem test_decode_mulImm : (decodeBytes [0x27#8, 0x01#8, 0x00#8, 0x00#8, 0xf9#8, 0xff#8, 0xff#8, 0xff#8]).toOption =
    some (.mulImm 1#4 0xFFFFFFF9#32) := by decide
theorem test_decode_mulReg : (decodeBytes [0x2f#8, 0x21#8, 0x00#8, 0x00#8, 0x00#8, 0x00#8, 0x00#8, 0x00#8]).toOption =
    some (.mulReg 1#4 2#4) := by decide
theorem test_decode_divImm : (decodeBytes [0x37#8, 0x01#8, 0x00#8, 0x00#8, 0x02#8, 0x00#8, 0x00#8, 0x00#8]).toOption =
    some (.divImm 1#4 0x2#32) := by decide
theorem test_decode_divReg : (decodeBytes [0x3f#8, 0x21#8, 0x00#8, 0x00#8, 0x00#8, 0x00#8, 0x00#8, 0x00#8]).toOption =
    some (.divReg 1#4 2#4) := by decide
theorem test_decode_orImm : (decodeBytes [0x47#8, 0x01#8, 0x00#8, 0x00#8, 0x00#8, 0x00#8, 0x00#8, 0x80#8]).toOption =
    some (.orImm 1#4 0x80000000#32) := by decide
theorem test_decode_orReg : (decodeBytes [0x4f#8, 0x21#8, 0x00#8, 0x00#8, 0x00#8, 0x00#8, 0x00#8, 0x00#8]).toOption =
    some (.orReg 1#4 2#4) := by decide
theorem test_decode_andImm : (decodeBytes [0x57#8, 0x01#8, 0x00#8, 0x00#8, 0xf0#8, 0xff#8, 0xff#8, 0xff#8]).toOption =
    some (.andImm 1#4 0xFFFFFFF0#32) := by decide
theorem test_decode_andReg : (decodeBytes [0x5f#8, 0x21#8, 0x00#8, 0x00#8, 0x00#8, 0x00#8, 0x00#8, 0x00#8]).toOption =
    some (.andReg 1#4 2#4) := by decide
theorem test_decode_lshImm : (decodeBytes [0x67#8, 0x01#8, 0x00#8, 0x00#8, 0x04#8, 0x00#8, 0x00#8, 0x00#8]).toOption =
    some (.lshImm 1#4 0x4#32) := by decide
theorem test_decode_lshReg : (decodeBytes [0x6f#8, 0x21#8, 0x00#8, 0x00#8, 0x00#8, 0x00#8, 0x00#8, 0x00#8]).toOption =
    some (.lshReg 1#4 2#4) := by decide
theorem test_decode_rshImm : (decodeBytes [0x77#8, 0x01#8, 0x00#8, 0x00#8, 0x01#8, 0x00#8, 0x00#8, 0x00#8]).toOption =
    some (.rshImm 1#4 0x1#32) := by decide
theorem test_decode_rshReg : (decodeBytes [0x7f#8, 0x21#8, 0x00#8, 0x00#8, 0x00#8, 0x00#8, 0x00#8, 0x00#8]).toOption =
    some (.rshReg 1#4 2#4) := by decide
theorem test_decode_negImm : (decodeBytes [0x87#8, 0x01#8, 0x00#8, 0x00#8, 0x00#8, 0x00#8, 0x00#8, 0x00#8]).toOption =
    some (.negImm 1#4) := by decide
theorem test_decode_negReg : (decodeBytes [0x8f#8, 0x01#8, 0x00#8, 0x00#8, 0x00#8, 0x00#8, 0x00#8, 0x00#8]).toOption =
    some (.negReg 1#4) := by decide
theorem test_decode_modImm : (decodeBytes [0x97#8, 0x01#8, 0x00#8, 0x00#8, 0x02#8, 0x00#8, 0x00#8, 0x00#8]).toOption =
    some (.modImm 1#4 0x2#32) := by decide
theorem test_decode_modReg : (decodeBytes [0x9f#8, 0x21#8, 0x00#8, 0x00#8, 0x00#8, 0x00#8, 0x00#8, 0x00#8]).toOption =
    some (.modReg 1#4 2#4) := by decide
theorem test_decode_xorImm : (decodeBytes [0xa7#8, 0x01#8, 0x00#8, 0x00#8, 0xff#8, 0xff#8, 0xff#8, 0xff#8]).toOption =
    some (.xorImm 1#4 0xFFFFFFFF#32) := by decide
theorem test_decode_xorReg : (decodeBytes [0xaf#8, 0x11#8, 0x00#8, 0x00#8, 0x00#8, 0x00#8, 0x00#8, 0x00#8]).toOption =
    some (.xorReg 1#4 1#4) := by decide
theorem test_decode_movImm : (decodeBytes [0xb7#8, 0x01#8, 0x00#8, 0x00#8, 0x05#8, 0x00#8, 0x00#8, 0x00#8]).toOption =
    some (.movImm 1#4 0x5#32) := by decide
theorem test_decode_movReg : (decodeBytes [0xbf#8, 0x21#8, 0x00#8, 0x00#8, 0x00#8, 0x00#8, 0x00#8, 0x00#8]).toOption =
    some (.movReg 1#4 2#4) := by decide
theorem test_decode_arshImm : (decodeBytes [0xc7#8, 0x01#8, 0x00#8, 0x00#8, 0x01#8, 0x00#8, 0x00#8, 0x00#8]).toOption =
    some (.arshImm 1#4 0x1#32) := by decide
theorem test_decode_arshReg : (decodeBytes [0xcf#8, 0x21#8, 0x00#8, 0x00#8, 0x00#8, 0x00#8, 0x00#8, 0x00#8]).toOption =
    some (.arshReg 1#4 2#4) := by decide
theorem test_decode_lddw : (decodeBytes [0x18#8, 0x01#8, 0x00#8, 0x00#8, 0x88#8, 0x77#8, 0x66#8, 0x55#8,
    0x00#8, 0x00#8, 0x00#8, 0x00#8, 0x44#8, 0x33#8, 0x22#8, 0x11#8]).toOption =
    some (.lddw 1#4 0x55667788#32 (some 0x11223344#32)) := by decide
theorem test_decode_ldxw : (decodeBytes [0x61#8, 0x10#8, 0x04#8, 0x00#8, 0x00#8, 0x00#8, 0x00#8, 0x00#8]).toOption =
    some (.ldxw 0#4 1#4 0x4#16) := by decide
theorem test_decode_ldxh : (decodeBytes [0x69#8, 0x10#8, 0x01#8, 0x00#8, 0x00#8, 0x00#8, 0x00#8, 0x00#8]).toOption =
    some (.ldxh 0#4 1#4 0x1#16) := by decide
theorem test_decode_ldxb : (decodeBytes [0x71#8, 0x11#8, 0x07#8, 0x00#8, 0x00#8, 0x00#8, 0x00#8, 0x00#8]).toOption =
    some (.ldxb 1#4 1#4 0x7#16) := by decide
theorem test_decode_ldxdw : (decodeBytes [0x79#8, 0x10#8, 0x00#8, 0x00#8, 0x00#8, 0x00#8, 0x00#8, 0x00#8]).toOption =
    some (.ldxdw 0#4 1#4 0x0#16) := by decide
theorem test_decode_stw : (decodeBytes [0x62#8, 0x01#8, 0x00#8, 0x00#8, 0x01#8, 0x00#8, 0x00#8, 0x80#8]).toOption =
    some (.stw 1#4 0x0#16 0x80000001#32) := by decide
theorem test_decode_sth : (decodeBytes [0x6a#8, 0x01#8, 0x00#8, 0x00#8, 0xfe#8, 0xff#8, 0xff#8, 0xff#8]).toOption =
    some (.sth 1#4 0x0#16 0xFFFFFFFE#32) := by decide
theorem test_decode_stb : (decodeBytes [0x72#8, 0x01#8, 0x01#8, 0x00#8, 0xff#8, 0x01#8, 0x00#8, 0x00#8]).toOption =
    some (.stb 1#4 0x1#16 0x1FF#32) := by decide
theorem test_decode_stdw : (decodeBytes [0x7a#8, 0x01#8, 0x00#8, 0x00#8, 0xfe#8, 0xff#8, 0xff#8, 0xff#8]).toOption =
    some (.stdw 1#4 0x0#16 0xFFFFFFFE#32) := by decide
theorem test_decode_stxw : (decodeBytes [0x63#8, 0x21#8, 0x00#8, 0x00#8, 0x00#8, 0x00#8, 0x00#8, 0x00#8]).toOption =
    some (.stxw 1#4 2#4 0x0#16) := by decide
theorem test_decode_stxh : (decodeBytes [0x6b#8, 0x21#8, 0x00#8, 0x00#8, 0x00#8, 0x00#8, 0x00#8, 0x00#8]).toOption =
    some (.stxh 1#4 2#4 0x0#16) := by decide
theorem test_decode_stxb : (decodeBytes [0x73#8, 0x21#8, 0x00#8, 0x00#8, 0x00#8, 0x00#8, 0x00#8, 0x00#8]).toOption =
    some (.stxb 1#4 2#4 0x0#16) := by decide
theorem test_decode_stxdw : (decodeBytes [0x7b#8, 0x21#8, 0xf8#8, 0xff#8, 0x00#8, 0x00#8, 0x00#8, 0x00#8]).toOption =
    some (.stxdw 1#4 2#4 0xFFF8#16) := by decide
theorem test_decode_ja : (decodeBytes [0x05#8, 0x00#8, 0xff#8, 0xff#8, 0x00#8, 0x00#8, 0x00#8, 0x00#8]).toOption =
    some (.ja 0xFFFF#16) := by decide
theorem test_decode_jeqImm : (decodeBytes [0x15#8, 0x01#8, 0x04#8, 0x00#8, 0x05#8, 0x00#8, 0x00#8, 0x00#8]).toOption =
    some (.jeqImm 1#4 0x5#32 0x4#16) := by decide
theorem test_decode_jeqReg : (decodeBytes [0x1d#8, 0x21#8, 0x04#8, 0x00#8, 0x00#8, 0x00#8, 0x00#8, 0x00#8]).toOption =
    some (.jeqReg 1#4 2#4 0x4#16) := by decide
theorem test_decode_jgtImm : (decodeBytes [0x25#8, 0x01#8, 0x04#8, 0x00#8, 0x01#8, 0x00#8, 0x00#8, 0x00#8]).toOption =
    some (.jgtImm 1#4 0x1#32 0x4#16) := by decide
theorem test_decode_jgtReg : (decodeBytes [0x2d#8, 0x21#8, 0x04#8, 0x00#8, 0x00#8, 0x00#8, 0x00#8, 0x00#8]).toOption =
    some (.jgtReg 1#4 2#4 0x4#16) := by decide
theorem test_decode_jgeImm : (decodeBytes [0x35#8, 0x01#8, 0x04#8, 0x00#8, 0x05#8, 0x00#8, 0x00#8, 0x00#8]).toOption =
    some (.jgeImm 1#4 0x5#32 0x4#16) := by decide
theorem test_decode_jgeReg : (decodeBytes [0x3d#8, 0x21#8, 0x04#8, 0x00#8, 0x00#8, 0x00#8, 0x00#8, 0x00#8]).toOption =
    some (.jgeReg 1#4 2#4 0x4#16) := by decide
theorem test_decode_jsetImm : (decodeBytes [0x45#8, 0x01#8, 0x04#8, 0x00#8, 0x10#8, 0x00#8, 0x00#8, 0x00#8]).toOption =
    some (.jsetImm 1#4 0x10#32 0x4#16) := by decide
theorem test_decode_jsetReg : (decodeBytes [0x4d#8, 0x21#8, 0x04#8, 0x00#8, 0x00#8, 0x00#8, 0x00#8, 0x00#8]).toOption =
    some (.jsetReg 1#4 2#4 0x4#16) := by decide
theorem test_decode_jneImm : (decodeBytes [0x55#8, 0x01#8, 0x04#8, 0x00#8, 0x00#8, 0x00#8, 0x00#8, 0x00#8]).toOption =
    some (.jneImm 1#4 0x0#32 0x4#16) := by decide
theorem test_decode_jneReg : (decodeBytes [0x5d#8, 0x21#8, 0x04#8, 0x00#8, 0x00#8, 0x00#8, 0x00#8, 0x00#8]).toOption =
    some (.jneReg 1#4 2#4 0x4#16) := by decide
theorem test_decode_jsgtImm : (decodeBytes [0x65#8, 0x01#8, 0x04#8, 0x00#8, 0x01#8, 0x00#8, 0x00#8, 0x00#8]).toOption =
    some (.jsgtImm 1#4 0x1#32 0x4#16) := by decide
theorem test_decode_jsgtReg : (decodeBytes [0x6d#8, 0x21#8, 0x04#8, 0x00#8, 0x00#8, 0x00#8, 0x00#8, 0x00#8]).toOption =
    some (.jsgtReg 1#4 2#4 0x4#16) := by decide
theorem test_decode_jsgeImm : (decodeBytes [0x75#8, 0x01#8, 0x04#8, 0x00#8, 0x05#8, 0x00#8, 0x00#8, 0x00#8]).toOption =
    some (.jsgeImm 1#4 0x5#32 0x4#16) := by decide
theorem test_decode_jsgeReg : (decodeBytes [0x7d#8, 0x21#8, 0x04#8, 0x00#8, 0x00#8, 0x00#8, 0x00#8, 0x00#8]).toOption =
    some (.jsgeReg 1#4 2#4 0x4#16) := by decide
theorem test_decode_jltImm : (decodeBytes [0xa5#8, 0x01#8, 0x04#8, 0x00#8, 0xff#8, 0xff#8, 0xff#8, 0xff#8]).toOption =
    some (.jltImm 1#4 0xFFFFFFFF#32 0x4#16) := by decide
theorem test_decode_jltReg : (decodeBytes [0xad#8, 0x21#8, 0x04#8, 0x00#8, 0x00#8, 0x00#8, 0x00#8, 0x00#8]).toOption =
    some (.jltReg 1#4 2#4 0x4#16) := by decide
theorem test_decode_jleImm : (decodeBytes [0xb5#8, 0x01#8, 0x04#8, 0x00#8, 0x05#8, 0x00#8, 0x00#8, 0x00#8]).toOption =
    some (.jleImm 1#4 0x5#32 0x4#16) := by decide
theorem test_decode_jleReg : (decodeBytes [0xbd#8, 0x21#8, 0x04#8, 0x00#8, 0x00#8, 0x00#8, 0x00#8, 0x00#8]).toOption =
    some (.jleReg 1#4 2#4 0x4#16) := by decide
theorem test_decode_jsltImm : (decodeBytes [0xc5#8, 0x01#8, 0x04#8, 0x00#8, 0x01#8, 0x00#8, 0x00#8, 0x00#8]).toOption =
    some (.jsltImm 1#4 0x1#32 0x4#16) := by decide
theorem test_decode_jsltReg : (decodeBytes [0xcd#8, 0x21#8, 0x04#8, 0x00#8, 0x00#8, 0x00#8, 0x00#8, 0x00#8]).toOption =
    some (.jsltReg 1#4 2#4 0x4#16) := by decide
theorem test_decode_jsleImm : (decodeBytes [0xd5#8, 0x01#8, 0x04#8, 0x00#8, 0x05#8, 0x00#8, 0x00#8, 0x00#8]).toOption =
    some (.jsleImm 1#4 0x5#32 0x4#16) := by decide
theorem test_decode_jsleReg : (decodeBytes [0xdd#8, 0x21#8, 0x04#8, 0x00#8, 0x00#8, 0x00#8, 0x00#8, 0x00#8]).toOption =
    some (.jsleReg 1#4 2#4 0x4#16) := by decide
theorem test_decode_call : (decodeBytes [0x85#8, 0x00#8, 0x03#8, 0x00#8, 0x00#8, 0x00#8, 0x00#8, 0x00#8]).toOption =
    some (.call 0x3#16) := by decide
theorem test_decode_exit : (decodeBytes [0x95#8, 0x00#8, 0x00#8, 0x00#8, 0x00#8, 0x00#8, 0x00#8, 0x00#8]).toOption =
    some (.exit) := by decide

/-- Fields the instruction does not use are ignored (the second row of the decoder vectors, section 2.1). -/
theorem test_decode_unused : (decodeBytes [0x07#8, 0xa9#8, 0xfe#8, 0xff#8, 0xff#8, 0xff#8, 0xff#8, 0xff#8]).toOption =
    some (.addImm 9#4 0xFFFFFFFF#32) := by decide

/-- A byte that is no known opcode is rejected by name (X8). -/
theorem test_decode_unknown : (decode (slotOfBytes 0x04#8 0xbb#8 0 0 0 0 0 0) none) = .error (.unknownOpcode 0x04#8) := rfl

/-- The encoder writes the bytes of the worked example of R62 (M21). -/
theorem test_encode_lddw : encode (.lddw 1#4 0x55667788#32 (some 0x11223344#32)) =
    [0x18#8, 0x01#8, 0x00#8, 0x00#8, 0x88#8, 0x77#8, 0x66#8, 0x55#8,
     0x00#8, 0x00#8, 0x00#8, 0x00#8, 0x44#8, 0x33#8, 0x22#8, 0x11#8] := by decide

/-- The word view of section 2.1: the bytes b7 01 00 00 05 00 00 00 are the number 0x00000005000001B7. -/
theorem test_decodeTableWord : decodeTableWord 64 0x00000005000001B7 = some (.movImm 1#4 5#32) := by decide

/-! One step each: the arithmetic and logic instructions at pc 0 (vectors A, B, S, Q). -/

theorem test_addImm_A2 : after (step (machine 0 [0x07#8, 0x01#8, 0x00#8, 0x00#8, 0x01#8, 0x00#8, 0x00#8, 0x00#8] 0#64 0x7FFFFFFFFFFFFFFF#64 0#64))
    (fun t => (t.reg 1, t.pc)) = some (0x8000000000000000#64, 1#64) := by decide
theorem test_addImm_A4 : after (step (machine 0 [0x07#8, 0x01#8, 0x00#8, 0x00#8, 0x00#8, 0x00#8, 0x00#8, 0x80#8] 0#64 0x0000000100000000#64 0#64))
    (fun t => (t.reg 1, t.pc)) = some (0x0000000080000000#64, 1#64) := by decide
theorem test_addReg_A5 : after (step (machine 0 [0x0f#8, 0x21#8, 0x00#8, 0x00#8, 0x00#8, 0x00#8, 0x00#8, 0x00#8] 0#64 0xFFFFFFFFFFFFFFFF#64 0x0000000000000001#64))
    (fun t => (t.reg 1, t.pc)) = some (0x0000000000000000#64, 1#64) := by decide
theorem test_addReg_A6 : after (step (machine 0 [0x0f#8, 0x11#8, 0x00#8, 0x00#8, 0x00#8, 0x00#8, 0x00#8, 0x00#8] 0#64 0x0000000000000003#64 0#64))
    (fun t => (t.reg 1, t.pc)) = some (0x0000000000000006#64, 1#64) := by decide
theorem test_subImm_A7 : after (step (machine 0 [0x17#8, 0x01#8, 0x00#8, 0x00#8, 0x03#8, 0x00#8, 0x00#8, 0x00#8] 0#64 0x000000000000000E#64 0#64))
    (fun t => (t.reg 1, t.pc)) = some (0x000000000000000B#64, 1#64) := by decide
theorem test_subImm_A8 : after (step (machine 0 [0x17#8, 0x01#8, 0x00#8, 0x00#8, 0x01#8, 0x00#8, 0x00#8, 0x00#8] 0#64 0x0000000000000000#64 0#64))
    (fun t => (t.reg 1, t.pc)) = some (0xFFFFFFFFFFFFFFFF#64, 1#64) := by decide
theorem test_subReg_A9 : after (step (machine 0 [0x1f#8, 0x21#8, 0x00#8, 0x00#8, 0x00#8, 0x00#8, 0x00#8, 0x00#8] 0#64 0x8000000000000000#64 0x0000000000000001#64))
    (fun t => (t.reg 1, t.pc)) = some (0x7FFFFFFFFFFFFFFF#64, 1#64) := by decide
theorem test_mulImm_A11 : after (step (machine 0 [0x27#8, 0x01#8, 0x00#8, 0x00#8, 0xf9#8, 0xff#8, 0xff#8, 0xff#8] 0#64 0x0000000000000006#64 0#64))
    (fun t => (t.reg 1, t.pc)) = some (0xFFFFFFFFFFFFFFD6#64, 1#64) := by decide
theorem test_mulReg_A12 : after (step (machine 0 [0x2f#8, 0x21#8, 0x00#8, 0x00#8, 0x00#8, 0x00#8, 0x00#8, 0x00#8] 0#64 0x0000000000000003#64 0x0000000000000005#64))
    (fun t => (t.reg 1, t.pc)) = some (0x000000000000000F#64, 1#64) := by decide
theorem test_mulReg_A14 : after (step (machine 0 [0x2f#8, 0x21#8, 0x00#8, 0x00#8, 0x00#8, 0x00#8, 0x00#8, 0x00#8] 0#64 0x8000000000000000#64 0xFFFFFFFFFFFFFFFF#64))
    (fun t => (t.reg 1, t.pc)) = some (0x8000000000000000#64, 1#64) := by decide
theorem test_negImm_A16 : after (step (machine 0 [0x87#8, 0x01#8, 0x00#8, 0x00#8, 0x00#8, 0x00#8, 0x00#8, 0x00#8] 0#64 0x0000000000000005#64 0#64))
    (fun t => (t.reg 1, t.pc)) = some (0xFFFFFFFFFFFFFFFB#64, 1#64) := by decide
theorem test_negReg_A18 : after (step (machine 0 [0x8f#8, 0x01#8, 0x00#8, 0x00#8, 0x00#8, 0x00#8, 0x00#8, 0x00#8] 0#64 0x8000000000000000#64 0#64))
    (fun t => (t.reg 1, t.pc)) = some (0x8000000000000000#64, 1#64) := by decide
theorem test_negReg_A19 : after (step (machine 0 [0x8f#8, 0xf1#8, 0xff#8, 0xff#8, 0xff#8, 0xff#8, 0xff#8, 0x7f#8] 0#64 0xFFFFFFFFFFFFFFFB#64 0#64))
    (fun t => (t.reg 1, t.pc)) = some (0x0000000000000005#64, 1#64) := by decide
theorem test_movImm_A22 : after (step (machine 0 [0xb7#8, 0x01#8, 0x00#8, 0x00#8, 0x00#8, 0x00#8, 0x00#8, 0x80#8] 0#64 0x0000000000000000#64 0#64))
    (fun t => (t.reg 1, t.pc)) = some (0xFFFFFFFF80000000#64, 1#64) := by decide
theorem test_movReg_A24 : after (step (machine 0 [0xbf#8, 0x21#8, 0x00#8, 0x00#8, 0x00#8, 0x00#8, 0x00#8, 0x00#8] 0#64 0x0000000000000007#64 0x0123456789ABCDEF#64))
    (fun t => (t.reg 1, t.pc)) = some (0x0123456789ABCDEF#64, 1#64) := by decide
theorem test_orImm_B1 : after (step (machine 0 [0x47#8, 0x01#8, 0x00#8, 0x00#8, 0x00#8, 0x00#8, 0x00#8, 0x80#8] 0#64 0x0000000000000001#64 0#64))
    (fun t => (t.reg 1, t.pc)) = some (0xFFFFFFFF80000001#64, 1#64) := by decide
theorem test_orReg_B2 : after (step (machine 0 [0x4f#8, 0x21#8, 0x00#8, 0x00#8, 0x00#8, 0x00#8, 0x00#8, 0x00#8] 0#64 0x000000000000F0F0#64 0x0000000000000F0F#64))
    (fun t => (t.reg 1, t.pc)) = some (0x000000000000FFFF#64, 1#64) := by decide
theorem test_andImm_B3 : after (step (machine 0 [0x57#8, 0x01#8, 0x00#8, 0x00#8, 0xf0#8, 0xff#8, 0xff#8, 0xff#8] 0#64 0x123456789ABCDEFF#64 0#64))
    (fun t => (t.reg 1, t.pc)) = some (0x123456789ABCDEF0#64, 1#64) := by decide
theorem test_andReg_B5 : after (step (machine 0 [0x5f#8, 0x21#8, 0x00#8, 0x00#8, 0x00#8, 0x00#8, 0x00#8, 0x00#8] 0#64 0xFF00FF00FF00FF00#64 0x0FF00FF00FF00FF0#64))
    (fun t => (t.reg 1, t.pc)) = some (0x0F000F000F000F00#64, 1#64) := by decide
theorem test_xorImm_B6 : after (step (machine 0 [0xa7#8, 0x01#8, 0x00#8, 0x00#8, 0xff#8, 0xff#8, 0xff#8, 0xff#8] 0#64 0x00000000FFFFFFFF#64 0#64))
    (fun t => (t.reg 1, t.pc)) = some (0xFFFFFFFF00000000#64, 1#64) := by decide
theorem test_xorReg_B8 : after (step (machine 0 [0xaf#8, 0x21#8, 0x00#8, 0x00#8, 0x00#8, 0x00#8, 0x00#8, 0x00#8] 0#64 0xAAAAAAAAAAAAAAAA#64 0xFFFFFFFFFFFFFFFF#64))
    (fun t => (t.reg 1, t.pc)) = some (0x5555555555555555#64, 1#64) := by decide
theorem test_lshImm_S2 : after (step (machine 0 [0x67#8, 0x01#8, 0x00#8, 0x00#8, 0x3f#8, 0x00#8, 0x00#8, 0x00#8] 0#64 0x0000000000000003#64 0#64))
    (fun t => (t.reg 1, t.pc)) = some (0x8000000000000000#64, 1#64) := by decide
theorem test_lshImm_S3 : after (step (machine 0 [0x67#8, 0x01#8, 0x00#8, 0x00#8, 0x40#8, 0x00#8, 0x00#8, 0x00#8] 0#64 0x0000000000000001#64 0#64))
    (fun t => (t.reg 1, t.pc)) = some (0x0000000000000000#64, 1#64) := by decide
theorem test_lshReg_S5 : after (step (machine 0 [0x6f#8, 0x21#8, 0x00#8, 0x00#8, 0x00#8, 0x00#8, 0x00#8, 0x00#8] 0#64 0x0000000000000001#64 0x0000000100000001#64))
    (fun t => (t.reg 1, t.pc)) = some (0x0000000000000000#64, 1#64) := by decide
theorem test_rshImm_S7 : after (step (machine 0 [0x77#8, 0x01#8, 0x00#8, 0x00#8, 0x01#8, 0x00#8, 0x00#8, 0x00#8] 0#64 0xFFFFFFFFFFFFFFF8#64 0#64))
    (fun t => (t.reg 1, t.pc)) = some (0x7FFFFFFFFFFFFFFC#64, 1#64) := by decide
theorem test_rshImm_S9 : after (step (machine 0 [0x77#8, 0x01#8, 0x00#8, 0x00#8, 0x40#8, 0x00#8, 0x00#8, 0x00#8] 0#64 0xFFFFFFFFFFFFFFFF#64 0#64))
    (fun t => (t.reg 1, t.pc)) = some (0x0000000000000000#64, 1#64) := by decide
theorem test_rshReg_S10 : after (step (machine 0 [0x7f#8, 0x21#8, 0x00#8, 0x00#8, 0x00#8, 0x00#8, 0x00#8, 0x00#8] 0#64 0x000000000000FF00#64 0x0000000000000008#64))
    (fun t => (t.reg 1, t.pc)) = some (0x00000000000000FF#64, 1#64) := by decide
theorem test_rshReg_S11 : after (step (machine 0 [0x7f#8, 0x11#8, 0x00#8, 0x00#8, 0x00#8, 0x00#8, 0x00#8, 0x00#8] 0#64 0x0000000000000004#64 0#64))
    (fun t => (t.reg 1, t.pc)) = some (0x0000000000000000#64, 1#64) := by decide
theorem test_arshImm_S12 : after (step (machine 0 [0xc7#8, 0x01#8, 0x00#8, 0x00#8, 0x01#8, 0x00#8, 0x00#8, 0x00#8] 0#64 0xFFFFFFFFFFFFFFF8#64 0#64))
    (fun t => (t.reg 1, t.pc)) = some (0xFFFFFFFFFFFFFFFC#64, 1#64) := by decide
theorem test_arshImm_S14 : after (step (machine 0 [0xc7#8, 0x01#8, 0x00#8, 0x00#8, 0x40#8, 0x00#8, 0x00#8, 0x00#8] 0#64 0xFFFFFFFFFFFFFFF8#64 0#64))
    (fun t => (t.reg 1, t.pc)) = some (0xFFFFFFFFFFFFFFFF#64, 1#64) := by decide
theorem test_arshReg_S17 : after (step (machine 0 [0xcf#8, 0x21#8, 0x00#8, 0x00#8, 0x00#8, 0x00#8, 0x00#8, 0x00#8] 0#64 0x4000000000000000#64 0x000000000000003E#64))
    (fun t => (t.reg 1, t.pc)) = some (0x0000000000000001#64, 1#64) := by decide
theorem test_arshReg_S18 : after (step (machine 0 [0xcf#8, 0x21#8, 0x00#8, 0x00#8, 0x00#8, 0x00#8, 0x00#8, 0x00#8] 0#64 0xFFFFFFFFFFFFFC00#64 0xFFFFFFFFFFFFFFFF#64))
    (fun t => (t.reg 1, t.pc)) = some (0xFFFFFFFFFFFFFFFF#64, 1#64) := by decide
theorem test_divImm_Q2 : after (step (machine 0 [0x37#8, 0x01#8, 0x00#8, 0x00#8, 0x02#8, 0x00#8, 0x00#8, 0x00#8] 0#64 0xFFFFFFFFFFFFFFF9#64 0#64))
    (fun t => (t.reg 1, t.pc)) = some (0xFFFFFFFFFFFFFFFD#64, 1#64) := by decide
theorem test_divImm_Q7 : faultOf (step (machine 0 [0x37#8, 0x01#8, 0x00#8, 0x00#8, 0x00#8, 0x00#8, 0x00#8, 0x00#8] 0#64 0x000000000000002A#64 0#64)) =
    some (.divisionByZero, 0#64, 0#64, 0#64) := by decide
theorem test_divReg_Q5 : after (step (machine 0 [0x3f#8, 0x21#8, 0x00#8, 0x00#8, 0x00#8, 0x00#8, 0x00#8, 0x00#8] 0#64 0x8000000000000000#64 0xFFFFFFFFFFFFFFFF#64))
    (fun t => (t.reg 1, t.pc)) = some (0x8000000000000000#64, 1#64) := by decide
theorem test_divReg_Q8 : faultOf (step (machine 0 [0x3f#8, 0x21#8, 0x00#8, 0x00#8, 0x00#8, 0x00#8, 0x00#8, 0x00#8] 0#64 0x000000000000002A#64 0x0000000000000000#64)) =
    some (.divisionByZero, 0#64, 0#64, 0#64) := by decide
theorem test_modImm_Q14 : after (step (machine 0 [0x97#8, 0x01#8, 0x00#8, 0x00#8, 0x02#8, 0x00#8, 0x00#8, 0x00#8] 0#64 0xFFFFFFFFFFFFFFF9#64 0#64))
    (fun t => (t.reg 1, t.pc)) = some (0xFFFFFFFFFFFFFFFF#64, 1#64) := by decide
theorem test_modImm_Q18 : faultOf (step (machine 0 [0x97#8, 0x01#8, 0x00#8, 0x00#8, 0x00#8, 0x00#8, 0x00#8, 0x00#8] 0#64 0x000000000000002A#64 0#64)) =
    some (.divisionByZero, 0#64, 0#64, 0#64) := by decide
theorem test_modReg_Q16 : after (step (machine 0 [0x9f#8, 0x21#8, 0x00#8, 0x00#8, 0x00#8, 0x00#8, 0x00#8, 0x00#8] 0#64 0xFFFFFFFFFFFFFFF9#64 0xFFFFFFFFFFFFFFFE#64))
    (fun t => (t.reg 1, t.pc)) = some (0xFFFFFFFFFFFFFFFF#64, 1#64) := by decide
theorem test_modReg_Q19 : faultOf (step (machine 0 [0x9f#8, 0x21#8, 0x00#8, 0x00#8, 0x00#8, 0x00#8, 0x00#8, 0x00#8] 0#64 0x000000000000002A#64 0x0000000000000000#64)) =
    some (.divisionByZero, 0#64, 0#64, 0#64) := by decide

/-! Loads (vectors M1 to M9) from the bytes 80 ff 7f 80 01 02 03 84 at address 0x20. -/

def loadBytes : Memory :=
  [(0x20, 0x80#8), (0x21, 0xff#8), (0x22, 0x7f#8), (0x23, 0x80#8), (0x24, 0x01#8), (0x25, 0x02#8), (0x26, 0x03#8), (0x27, 0x84#8)]

theorem test_ldxb_M1 : after (step (machine 0 [0x71#8, 0x10#8, 0x00#8, 0x00#8, 0x00#8, 0x00#8, 0x00#8, 0x00#8] 0x5555555555555555#64 0x20#64 0#64 loadBytes))
    (fun t => (t.reg 0, t.pc)) = some (0xFFFFFFFFFFFFFF80#64, 1#64) := by decide
theorem test_ldxb_M9 : after (step (machine 0 [0x71#8, 0x11#8, 0x07#8, 0x00#8, 0x00#8, 0x00#8, 0x00#8, 0x00#8] 0x5555555555555555#64 0x20#64 0#64 loadBytes))
    (fun t => (t.reg 1, t.pc)) = some (0xFFFFFFFFFFFFFF84#64, 1#64) := by decide
theorem test_ldxh_M3 : after (step (machine 0 [0x69#8, 0x10#8, 0x00#8, 0x00#8, 0x00#8, 0x00#8, 0x00#8, 0x00#8] 0x5555555555555555#64 0x20#64 0#64 loadBytes))
    (fun t => (t.reg 0, t.pc)) = some (0xFFFFFFFFFFFFFF80#64, 1#64) := by decide
theorem test_ldxh_M4 : after (step (machine 0 [0x69#8, 0x10#8, 0x01#8, 0x00#8, 0x00#8, 0x00#8, 0x00#8, 0x00#8] 0x5555555555555555#64 0x20#64 0#64 loadBytes))
    (fun t => (t.reg 0, t.pc)) = some (0x0000000000007FFF#64, 1#64) := by decide
theorem test_ldxw_M5 : after (step (machine 0 [0x61#8, 0x10#8, 0x00#8, 0x00#8, 0x00#8, 0x00#8, 0x00#8, 0x00#8] 0x5555555555555555#64 0x20#64 0#64 loadBytes))
    (fun t => (t.reg 0, t.pc)) = some (0x00000000807FFF80#64, 1#64) := by decide
theorem test_ldxw_M8 : after (step (machine 0 [0x61#8, 0x10#8, 0x03#8, 0x00#8, 0x00#8, 0x00#8, 0x00#8, 0x00#8] 0x5555555555555555#64 0x20#64 0#64 loadBytes))
    (fun t => (t.reg 0, t.pc)) = some (0x0000000003020180#64, 1#64) := by decide
theorem test_ldxdw_M7 : after (step (machine 0 [0x79#8, 0x10#8, 0x00#8, 0x00#8, 0x00#8, 0x00#8, 0x00#8, 0x00#8] 0x5555555555555555#64 0x20#64 0#64 loadBytes))
    (fun t => (t.reg 0, t.pc)) = some (0x84030201807FFF80#64, 1#64) := by decide
theorem test_ldxdw_E5 : faultOf (step (machine 0 [0x79#8, 0x10#8, 0x00#8, 0x00#8, 0x00#8, 0x00#8, 0x00#8, 0x00#8] 0#64 0xFFF9#64 0#64)) =
    some (.memoryAccessOutOfBounds, 0#64, 0#64, 0#64) := by decide

/-! Stores (vectors M10 to M19) and the memory they leave. -/

theorem test_stxb_M10 : after (step (machine 0 [0x73#8, 0x21#8, 0x00#8, 0x00#8, 0x00#8, 0x00#8, 0x00#8, 0x00#8] 0#64 0x40#64 0x1122334455667788#64))
    (fun t => (t.mem, t.pc)) = some ([(0x40, 0x88#8)], 1#64) := by decide
theorem test_stxh_M11 : after (step (machine 0 [0x6b#8, 0x21#8, 0x00#8, 0x00#8, 0x00#8, 0x00#8, 0x00#8, 0x00#8] 0#64 0x40#64 0x1122334455667788#64))
    (fun t => (t.mem, t.pc)) = some ([(0x40, 0x88#8), (0x41, 0x77#8)], 1#64) := by decide
theorem test_stxw_M12 : after (step (machine 0 [0x63#8, 0x21#8, 0x00#8, 0x00#8, 0x00#8, 0x00#8, 0x00#8, 0x00#8] 0#64 0x40#64 0x1122334455667788#64))
    (fun t => (t.mem, t.pc)) = some ([(0x40, 0x88#8), (0x41, 0x77#8), (0x42, 0x66#8), (0x43, 0x55#8)], 1#64) := by decide
theorem test_stxdw_M13 : after (step (machine 0 [0x7b#8, 0x21#8, 0x00#8, 0x00#8, 0x00#8, 0x00#8, 0x00#8, 0x00#8] 0#64 0x40#64 0x1122334455667788#64))
    (fun t => (t.mem, t.pc)) = some ([(0x40, 0x88#8), (0x41, 0x77#8), (0x42, 0x66#8), (0x43, 0x55#8), (0x44, 0x44#8), (0x45, 0x33#8), (0x46, 0x22#8), (0x47, 0x11#8)], 1#64) := by decide
theorem test_stxdw_M14 : after (step (machine 0 [0x7b#8, 0x21#8, 0xf8#8, 0xff#8, 0x00#8, 0x00#8, 0x00#8, 0x00#8] 0#64 0x40#64 0x1122334455667788#64))
    (fun t => (t.mem, t.pc)) = some ([(0x38, 0x88#8), (0x39, 0x77#8), (0x3a, 0x66#8), (0x3b, 0x55#8), (0x3c, 0x44#8), (0x3d, 0x33#8), (0x3e, 0x22#8), (0x3f, 0x11#8)], 1#64) := by decide
theorem test_stb_M15 : after (step (machine 0 [0x72#8, 0x01#8, 0x01#8, 0x00#8, 0xff#8, 0x01#8, 0x00#8, 0x00#8] 0#64 0x40#64 0x1122334455667788#64))
    (fun t => (t.mem, t.pc)) = some ([(0x41, 0xff#8)], 1#64) := by decide
theorem test_sth_M16 : after (step (machine 0 [0x6a#8, 0x01#8, 0x00#8, 0x00#8, 0xfe#8, 0xff#8, 0xff#8, 0xff#8] 0#64 0x40#64 0x1122334455667788#64))
    (fun t => (t.mem, t.pc)) = some ([(0x40, 0xfe#8), (0x41, 0xff#8)], 1#64) := by decide
theorem test_stw_M17 : after (step (machine 0 [0x62#8, 0x01#8, 0x00#8, 0x00#8, 0x01#8, 0x00#8, 0x00#8, 0x80#8] 0#64 0x40#64 0x1122334455667788#64))
    (fun t => (t.mem, t.pc)) = some ([(0x40, 0x01#8), (0x43, 0x80#8)], 1#64) := by decide
theorem test_stdw_M18 : after (step (machine 0 [0x7a#8, 0x01#8, 0x00#8, 0x00#8, 0xfe#8, 0xff#8, 0xff#8, 0xff#8] 0#64 0x40#64 0x1122334455667788#64))
    (fun t => (t.mem, t.pc)) = some ([(0x40, 0xfe#8), (0x41, 0xff#8), (0x42, 0xff#8), (0x43, 0xff#8), (0x44, 0xff#8), (0x45, 0xff#8), (0x46, 0xff#8), (0x47, 0xff#8)], 1#64) := by decide
theorem test_stdw_M19 : after (step (machine 0 [0x7a#8, 0x01#8, 0x00#8, 0x00#8, 0xff#8, 0xff#8, 0xff#8, 0x7f#8] 0#64 0x40#64 0x1122334455667788#64))
    (fun t => (t.mem, t.pc)) = some ([(0x40, 0xff#8), (0x41, 0xff#8), (0x42, 0xff#8), (0x43, 0x7f#8)], 1#64) := by decide
theorem test_stxw_T5 : faultOf (step (machine 0 [0x63#8, 0x21#8, 0x00#8, 0x00#8, 0x00#8, 0x00#8, 0x00#8, 0x00#8] 0#64 0xFFFD#64 0xAABBCCDD#64)) =
    some (.memoryAccessOutOfBounds, 0#64, 0#64, 0#64) := by decide

/-! LDDW (M24: every unused field set; F12: the second slot missing). -/

theorem test_lddw_M24 : after (step (machine 0 [0x18#8, 0xf3#8, 0xff#8, 0xff#8, 0x88#8, 0x77#8, 0x66#8, 0x55#8,
      0xff#8, 0xff#8, 0x34#8, 0x12#8, 0x44#8, 0x33#8, 0x22#8, 0x11#8] 0#64 0#64 0#64))
    (fun t => (t.reg 3, t.pc)) = some (0x1122334455667788#64, 2#64) := by decide
theorem test_lddw_F12 : faultOf (step (machine 4 [0x18#8, 0x01#8, 0x00#8, 0x00#8, 0x05#8, 0x00#8, 0x00#8, 0x00#8] 0#64 42#64 0#64)) =
    some (.programCounterOutOfRange, 4#64, 0#64, 4#64) := by decide

/-! Jumps at pc 10 (vectors J and K). -/

theorem test_jeqImm_J3 : after (step (machine 10 [0x15#8, 0x01#8, 0x04#8, 0x00#8, 0xff#8, 0xff#8, 0xff#8, 0xff#8] 0#64 0xFFFFFFFFFFFFFFFF#64 0#64))
    (fun t => t.pc) = some 14#64 := by decide
theorem test_jeqImm_J4 : after (step (machine 10 [0x15#8, 0x01#8, 0x04#8, 0x00#8, 0xff#8, 0xff#8, 0xff#8, 0xff#8] 0#64 0x00000000FFFFFFFF#64 0#64))
    (fun t => t.pc) = some 11#64 := by decide
theorem test_jeqReg_J5 : after (step (machine 10 [0x1d#8, 0x21#8, 0x04#8, 0x00#8, 0x00#8, 0x00#8, 0x00#8, 0x00#8] 0#64 0x0000000000000007#64 0x0000000000000007#64))
    (fun t => t.pc) = some 14#64 := by decide
theorem test_jeqReg_J6 : after (step (machine 10 [0x1d#8, 0x21#8, 0x04#8, 0x00#8, 0x00#8, 0x00#8, 0x00#8, 0x00#8] 0#64 0x0000000000000007#64 0x0000000000000008#64))
    (fun t => t.pc) = some 11#64 := by decide
theorem test_jneImm_J7 : after (step (machine 10 [0x55#8, 0x01#8, 0x04#8, 0x00#8, 0x00#8, 0x00#8, 0x00#8, 0x00#8] 0#64 0x0000000000000001#64 0#64))
    (fun t => t.pc) = some 14#64 := by decide
theorem test_jneImm_J8 : after (step (machine 10 [0x55#8, 0x01#8, 0x04#8, 0x00#8, 0x00#8, 0x00#8, 0x00#8, 0x00#8] 0#64 0x0000000000000000#64 0#64))
    (fun t => t.pc) = some 11#64 := by decide
theorem test_jneReg_J9 : after (step (machine 10 [0x5d#8, 0x21#8, 0x04#8, 0x00#8, 0x00#8, 0x00#8, 0x00#8, 0x00#8] 0#64 0x0000000000000001#64 0x0000000000000001#64))
    (fun t => t.pc) = some 11#64 := by decide
theorem test_jneReg_J10 : after (step (machine 10 [0x5d#8, 0x21#8, 0x04#8, 0x00#8, 0x00#8, 0x00#8, 0x00#8, 0x00#8] 0#64 0x0000000000000001#64 0x0000000100000001#64))
    (fun t => t.pc) = some 14#64 := by decide
theorem test_jgtImm_J11 : after (step (machine 10 [0x25#8, 0x01#8, 0x04#8, 0x00#8, 0x01#8, 0x00#8, 0x00#8, 0x00#8] 0#64 0xFFFFFFFFFFFFFFFF#64 0#64))
    (fun t => t.pc) = some 14#64 := by decide
theorem test_jgtImm_J12 : after (step (machine 10 [0x25#8, 0x01#8, 0x04#8, 0x00#8, 0xff#8, 0xff#8, 0xff#8, 0xff#8] 0#64 0x0000000000000001#64 0#64))
    (fun t => t.pc) = some 11#64 := by decide
theorem test_jgtReg_J14 : after (step (machine 10 [0x2d#8, 0x21#8, 0x04#8, 0x00#8, 0x00#8, 0x00#8, 0x00#8, 0x00#8] 0#64 0x8000000000000000#64 0x7FFFFFFFFFFFFFFF#64))
    (fun t => t.pc) = some 14#64 := by decide
theorem test_jgeImm_J15 : after (step (machine 10 [0x35#8, 0x01#8, 0x04#8, 0x00#8, 0x05#8, 0x00#8, 0x00#8, 0x00#8] 0#64 0x0000000000000005#64 0#64))
    (fun t => t.pc) = some 14#64 := by decide
theorem test_jgeImm_J16 : after (step (machine 10 [0x35#8, 0x01#8, 0x04#8, 0x00#8, 0x05#8, 0x00#8, 0x00#8, 0x00#8] 0#64 0x0000000000000004#64 0#64))
    (fun t => t.pc) = some 11#64 := by decide
theorem test_jgeReg_J17 : after (step (machine 10 [0x3d#8, 0x21#8, 0x04#8, 0x00#8, 0x00#8, 0x00#8, 0x00#8, 0x00#8] 0#64 0x0000000000000000#64 0xFFFFFFFFFFFFFFFF#64))
    (fun t => t.pc) = some 11#64 := by decide
theorem test_jgeReg_J18 : after (step (machine 10 [0x3d#8, 0x21#8, 0x04#8, 0x00#8, 0x00#8, 0x00#8, 0x00#8, 0x00#8] 0#64 0xFFFFFFFFFFFFFFFF#64 0x0000000000000000#64))
    (fun t => t.pc) = some 14#64 := by decide
theorem test_jltImm_J19 : after (step (machine 10 [0xa5#8, 0x01#8, 0x04#8, 0x00#8, 0xff#8, 0xff#8, 0xff#8, 0xff#8] 0#64 0x0000000000000001#64 0#64))
    (fun t => t.pc) = some 14#64 := by decide
theorem test_jltImm_J20 : after (step (machine 10 [0xa5#8, 0x01#8, 0x04#8, 0x00#8, 0x01#8, 0x00#8, 0x00#8, 0x00#8] 0#64 0xFFFFFFFFFFFFFFFF#64 0#64))
    (fun t => t.pc) = some 11#64 := by decide
theorem test_jltReg_J21 : after (step (machine 10 [0xad#8, 0x21#8, 0x04#8, 0x00#8, 0x00#8, 0x00#8, 0x00#8, 0x00#8] 0#64 0x0000000000000003#64 0x0000000000000003#64))
    (fun t => t.pc) = some 11#64 := by decide
theorem test_jltReg_J22 : after (step (machine 10 [0xad#8, 0x21#8, 0x04#8, 0x00#8, 0x00#8, 0x00#8, 0x00#8, 0x00#8] 0#64 0x7FFFFFFFFFFFFFFF#64 0x8000000000000000#64))
    (fun t => t.pc) = some 14#64 := by decide
theorem test_jleImm_J23 : after (step (machine 10 [0xb5#8, 0x01#8, 0x04#8, 0x00#8, 0x05#8, 0x00#8, 0x00#8, 0x00#8] 0#64 0x0000000000000005#64 0#64))
    (fun t => t.pc) = some 14#64 := by decide
theorem test_jleImm_J24 : after (step (machine 10 [0xb5#8, 0x01#8, 0x04#8, 0x00#8, 0x05#8, 0x00#8, 0x00#8, 0x00#8] 0#64 0x0000000000000006#64 0#64))
    (fun t => t.pc) = some 11#64 := by decide
theorem test_jleReg_J25 : after (step (machine 10 [0xbd#8, 0x21#8, 0x04#8, 0x00#8, 0x00#8, 0x00#8, 0x00#8, 0x00#8] 0#64 0x0000000000000000#64 0xFFFFFFFFFFFFFFFF#64))
    (fun t => t.pc) = some 14#64 := by decide
theorem test_jleReg_J26 : after (step (machine 10 [0xbd#8, 0x21#8, 0x04#8, 0x00#8, 0x00#8, 0x00#8, 0x00#8, 0x00#8] 0#64 0xFFFFFFFFFFFFFFFF#64 0x0000000000000000#64))
    (fun t => t.pc) = some 11#64 := by decide
theorem test_jsgtImm_J27 : after (step (machine 10 [0x65#8, 0x01#8, 0x04#8, 0x00#8, 0x01#8, 0x00#8, 0x00#8, 0x00#8] 0#64 0xFFFFFFFFFFFFFFFF#64 0#64))
    (fun t => t.pc) = some 11#64 := by decide
theorem test_jsgtImm_J28 : after (step (machine 10 [0x65#8, 0x01#8, 0x04#8, 0x00#8, 0xff#8, 0xff#8, 0xff#8, 0xff#8] 0#64 0x0000000000000001#64 0#64))
    (fun t => t.pc) = some 14#64 := by decide
theorem test_jsgtReg_J30 : after (step (machine 10 [0x6d#8, 0x21#8, 0x04#8, 0x00#8, 0x00#8, 0x00#8, 0x00#8, 0x00#8] 0#64 0x8000000000000000#64 0x7FFFFFFFFFFFFFFF#64))
    (fun t => t.pc) = some 11#64 := by decide
theorem test_jsgtReg_J31 : after (step (machine 10 [0x6d#8, 0x21#8, 0x04#8, 0x00#8, 0x00#8, 0x00#8, 0x00#8, 0x00#8] 0#64 0x7FFFFFFFFFFFFFFF#64 0x8000000000000000#64))
    (fun t => t.pc) = some 14#64 := by decide
theorem test_jsgeImm_J32 : after (step (machine 10 [0x75#8, 0x01#8, 0x04#8, 0x00#8, 0x05#8, 0x00#8, 0x00#8, 0x00#8] 0#64 0x0000000000000005#64 0#64))
    (fun t => t.pc) = some 14#64 := by decide
theorem test_jsgeImm_J33 : after (step (machine 10 [0x75#8, 0x01#8, 0x04#8, 0x00#8, 0xff#8, 0xff#8, 0xff#8, 0xff#8] 0#64 0xFFFFFFFFFFFFFFFE#64 0#64))
    (fun t => t.pc) = some 11#64 := by decide
theorem test_jsgeReg_J34 : after (step (machine 10 [0x7d#8, 0x21#8, 0x04#8, 0x00#8, 0x00#8, 0x00#8, 0x00#8, 0x00#8] 0#64 0x0000000000000000#64 0xFFFFFFFFFFFFFFFF#64))
    (fun t => t.pc) = some 14#64 := by decide
theorem test_jsgeReg_J35 : after (step (machine 10 [0x7d#8, 0x21#8, 0x04#8, 0x00#8, 0x00#8, 0x00#8, 0x00#8, 0x00#8] 0#64 0xFFFFFFFFFFFFFFFF#64 0x0000000000000000#64))
    (fun t => t.pc) = some 11#64 := by decide
theorem test_jsltImm_J36 : after (step (machine 10 [0xc5#8, 0x01#8, 0x04#8, 0x00#8, 0x01#8, 0x00#8, 0x00#8, 0x00#8] 0#64 0xFFFFFFFFFFFFFFFF#64 0#64))
    (fun t => t.pc) = some 14#64 := by decide
theorem test_jsltImm_J37 : after (step (machine 10 [0xc5#8, 0x01#8, 0x04#8, 0x00#8, 0xff#8, 0xff#8, 0xff#8, 0xff#8] 0#64 0x0000000000000001#64 0#64))
    (fun t => t.pc) = some 11#64 := by decide
theorem test_jsltReg_J38 : after (step (machine 10 [0xcd#8, 0x21#8, 0x04#8, 0x00#8, 0x00#8, 0x00#8, 0x00#8, 0x00#8] 0#64 0x0000000000000003#64 0x0000000000000003#64))
    (fun t => t.pc) = some 11#64 := by decide
theorem test_jsltReg_J39 : after (step (machine 10 [0xcd#8, 0x21#8, 0x04#8, 0x00#8, 0x00#8, 0x00#8, 0x00#8, 0x00#8] 0#64 0x8000000000000000#64 0x7FFFFFFFFFFFFFFF#64))
    (fun t => t.pc) = some 14#64 := by decide
theorem test_jsleImm_J40 : after (step (machine 10 [0xd5#8, 0x01#8, 0x04#8, 0x00#8, 0x05#8, 0x00#8, 0x00#8, 0x00#8] 0#64 0x0000000000000005#64 0#64))
    (fun t => t.pc) = some 14#64 := by decide
theorem test_jsleImm_J41 : after (step (machine 10 [0xd5#8, 0x01#8, 0x04#8, 0x00#8, 0x05#8, 0x00#8, 0x00#8, 0x00#8] 0#64 0x0000000000000006#64 0#64))
    (fun t => t.pc) = some 11#64 := by decide
theorem test_jsleReg_J42 : after (step (machine 10 [0xdd#8, 0x21#8, 0x04#8, 0x00#8, 0x00#8, 0x00#8, 0x00#8, 0x00#8] 0#64 0xFFFFFFFFFFFFFFFF#64 0x0000000000000000#64))
    (fun t => t.pc) = some 14#64 := by decide
theorem test_jsleReg_J43 : after (step (machine 10 [0xdd#8, 0x21#8, 0x04#8, 0x00#8, 0x00#8, 0x00#8, 0x00#8, 0x00#8] 0#64 0x0000000000000000#64 0xFFFFFFFFFFFFFFFF#64))
    (fun t => t.pc) = some 11#64 := by decide
theorem test_jsetImm_J46 : after (step (machine 10 [0x45#8, 0x01#8, 0x04#8, 0x00#8, 0xff#8, 0xff#8, 0xff#8, 0xff#8] 0#64 0x8000000000000000#64 0#64))
    (fun t => t.pc) = some 14#64 := by decide
theorem test_jsetImm_J47 : after (step (machine 10 [0x45#8, 0x01#8, 0x04#8, 0x00#8, 0xff#8, 0xff#8, 0xff#8, 0x7f#8] 0#64 0x8000000000000000#64 0#64))
    (fun t => t.pc) = some 11#64 := by decide
theorem test_jsetReg_J48 : after (step (machine 10 [0x4d#8, 0x21#8, 0x04#8, 0x00#8, 0x00#8, 0x00#8, 0x00#8, 0x00#8] 0#64 0x00000000000000F0#64 0x000000000000000F#64))
    (fun t => t.pc) = some 11#64 := by decide
theorem test_jsetReg_J49 : after (step (machine 10 [0x4d#8, 0x21#8, 0x04#8, 0x00#8, 0x00#8, 0x00#8, 0x00#8, 0x00#8] 0#64 0x00000000000000F0#64 0x000000000000001F#64))
    (fun t => t.pc) = some 14#64 := by decide
theorem test_ja_K2 : after (step (machine 10 [0x05#8, 0x00#8, 0xff#8, 0xff#8, 0x00#8, 0x00#8, 0x00#8, 0x00#8] 0#64 0#64 0#64))
    (fun t => t.pc.toInt) = some (9) := by decide
theorem test_ja_K6 : after (step (machine 10 [0x05#8, 0x00#8, 0xf5#8, 0xff#8, 0x00#8, 0x00#8, 0x00#8, 0x00#8] 0#64 0#64 0#64))
    (fun t => t.pc.toInt) = some (-1) := by decide

/-! CALL, EXIT, an unknown opcode, register checks, the empty program (vectors X and F). -/

theorem test_call_X1 : after (step (machine 10 [0x85#8, 0x00#8, 0x03#8, 0x00#8, 0x00#8, 0x00#8, 0x00#8, 0x00#8] 0#64 0#64 0#64))
    (fun t => (t.reg t.linkReg, t.pc)) = some (11#64, 13#64) := by decide
theorem test_call_X4 : after (step { machine 10 [0x85#8, 0xff#8, 0x02#8, 0x00#8, 0x78#8, 0x56#8, 0x34#8, 0x12#8] 0#64 0#64 0#64 with linkReg := 9 })
    (fun t => (t.reg 9, t.reg 0, t.pc)) = some (11#64, 0#64, 12#64) := by decide
theorem test_exit_X5 : statusOf (step (machine 5 [0x95#8, 0x00#8, 0x00#8, 0x00#8, 0x00#8, 0x00#8, 0x00#8, 0x00#8] 11#64 0#64 0#64)) =
    some .terminated := by decide
theorem test_unknown_X8 : faultOf (step (machine 3 [0x04#8, 0xbb#8, 0x00#8, 0x00#8, 0x00#8, 0x00#8, 0x00#8, 0x00#8] 0#64 9#64 0#64)) =
    some (.unknownOpcode, 3#64, 0x04#64, 3#64) := by decide
theorem test_dst_first_F3 : faultOf (step (machine 4 [0xbf#8, 0xdc#8, 0x00#8, 0x00#8, 0x00#8, 0x00#8, 0x00#8, 0x00#8] 0#64 42#64 0#64)) =
    some (.invalidRegister, 4#64, 12#64, 4#64) := by decide
theorem test_empty_program_F17 : faultOf (step State.reset) = some (.programCounterOutOfRange, 0#64, 0#64, 0#64) := by decide

/-- The instruction `withFetchWord` places is the one the next step runs, from reset: MOV_IMM r1, 5. -/
theorem test_withFetchWord : after (step (State.reset.withFetchWord 64 0x00000005000001B7)) (fun t => (t.reg 1, t.pc)) =
    some (5#64, 1#64) := by decide

/-- An input of 47 bytes is malformed, index 5 (length check, section 2.1). -/
theorem test_launch_malformed : (launch 0 (List.replicate 47 0xb7#8)).faultIndex = 5#64 := by decide

/-! Witnesses: for every statement with hypotheses, states and operands that meet them. -/

/-- A record with the opcode byte `op`, the register fields `d` and `s` and no other bit. -/
def slot (op : Byte) (d s : RegField) : Record where
  opcode := op
  dst := d
  src := s
  offset := 0
  imm := 0

/-- MOV_IMM r1, 5 as the only slot, at pc 0. -/
def movImmAt0 : State := machine 0 [0xb7#8, 0x01#8, 0x00#8, 0x00#8, 0x05#8, 0x00#8, 0x00#8, 0x00#8] 0#64 0#64 0#64

/-- EXIT as the only slot, at pc 0. -/
def exitAt0 : State := machine 0 [0x95#8, 0x00#8, 0x00#8, 0x00#8, 0x00#8, 0x00#8, 0x00#8, 0x00#8] 0#64 0#64 0#64

/-- An unknown opcode as the only slot, at pc 0. -/
def unknownAt0 : State := machine 0 [0xd4#8, 0xbb#8, 0x00#8, 0x00#8, 0x00#8, 0x00#8, 0x00#8, 0x00#8] 0#64 0#64 0#64

/-- DIV_REG r1, r2 with a zero divisor as the only slot, at pc 0. -/
def divideByZeroAt0 : State := machine 0 [0x3f#8, 0x21#8, 0x00#8, 0x00#8, 0x00#8, 0x00#8, 0x00#8, 0x00#8] 0#64 42#64 0#64

/-- A running machine with the base register x[1] and the capacity 16. -/
def smallMemory (x1 : Word) : State := { machine 0 [] 0#64 x1 7#64 with memCap := 16 }

theorem witness_DecodeOfEncodeIsTheInstruction :
    (Instr.lddw 10#4 0x80000000#32 (some 0xFFFFFFFF#32)).wellFormed = true ∧ (Instr.stxdw 10#4 0#4 0x8000#16).wellFormed = true ∧
    Instr.exit.wellFormed = true := by decide

theorem witness_DecodedFieldsAreTheSlotsFields :
    decode (slotOfBytes 0x18#8 0xf3#8 0xff#8 0xff#8 0x88#8 0x77#8 0x66#8 0x55#8)
      (some (slotOfBytes 0xff#8 0xff#8 0x34#8 0x12#8 0x44#8 0x33#8 0x22#8 0x11#8)) =
      .ok (.lddw 3#4 0x55667788#32 (some 0x11223344#32)) ∧
    decode (slotOfBytes 0x7b#8 0x21#8 0xf8#8 0xff#8 0 0 0 0) none = .ok (.stxdw 1#4 2#4 0xfff8#16) ∧
    decode (slotOfBytes 0xd5#8 0x01#8 0x04#8 0x00#8 0xfb#8 0xff#8 0xff#8 0xff#8) none = .ok (.jsleImm 1#4 0xfffffffb#32 4#16) :=
  ⟨rfl, rfl, rfl⟩

theorem witness_UnusedFieldsAreIgnored :
    decode (slot 0x07#8 9#4 0#4) none = .ok (.addImm 9#4 0#32) ∧ (slot 0x07#8 9#4 15#4).opcode = (slot 0x07#8 9#4 0#4).opcode ∧
    (slot 0x07#8 9#4 15#4).dst = (slot 0x07#8 9#4 0#4).dst ∧ (slot 0x07#8 9#4 15#4).imm = (slot 0x07#8 9#4 0#4).imm ∧
    (Instr.addImm 9#4 0#32).src? = none ∧ (Instr.addImm 9#4 0#32).offset? = none ∧
    (slot 0x07#8 9#4 15#4).src ≠ (slot 0x07#8 9#4 0#4).src :=
  ⟨rfl, rfl, rfl, rfl, rfl, rfl, by decide⟩

theorem witness_ExactlyTheKnownOpcodesDecode : (slot 0x05#8 0#4 0#4).opcode ∈ knownOpcodes ∧
    (slot 0xdd#8 0#4 0#4).opcode ∈ knownOpcodes ∧ (slot 0x00#8 0#4 0#4).opcode ∉ knownOpcodes ∧
    (slot 0xff#8 0#4 0#4).opcode ∉ knownOpcodes ∧ (slot 0xd4#8 0#4 0#4).opcode ∉ knownOpcodes := by decide

theorem witness_ProgramStoreIsTheInputInOrder : (List.replicate 16 (0x95#8 : Byte)).length = 8 * 2 ∧ 0 < 2 ∧ 1 < 2 ∧
    ([] : List Byte).length = 8 * 0 := by decide

theorem witness_StepRunsTheDecodedInstruction : movImmAt0.status = .running ∧
    movImmAt0.insnAt movImmAt0.pc.toInt = some (slotOfBytes 0xb7#8 0x01#8 0x00#8 0x00#8 0x05#8 0x00#8 0x00#8 0x00#8) ∧
    decode (slotOfBytes 0xb7#8 0x01#8 0x00#8 0x00#8 0x05#8 0x00#8 0x00#8 0x00#8) (movImmAt0.insnAt (movImmAt0.pc.toInt + 1)) =
      .ok (.movImm 1#4 5#32) :=
  ⟨by decide, by decide, rfl⟩

theorem witness_StepFetchesDispatchesAndExecutes :
    -- below the program, one past its end, an unknown opcode and a known one in range
    ({ movImmAt0 with pc := -1#64 }.status = .running ∧ { movImmAt0 with pc := -1#64 }.pc.toInt < 0) ∧
    ((movImmAt0.prog.length : Int) ≤ { movImmAt0 with pc := 1#64 }.pc.toInt) ∧
    (0 ≤ unknownAt0.pc.toInt ∧ unknownAt0.pc.toInt < unknownAt0.prog.length ∧
      unknownAt0.prog[unknownAt0.pc.toInt.toNat]? = some (slot 0xd4#8 11#4 11#4) ∧ (slot 0xd4#8 11#4 11#4).opcode ∉ knownOpcodes) ∧
    (0 ≤ exitAt0.pc.toInt ∧ exitAt0.pc.toInt < exitAt0.prog.length ∧
      exitAt0.prog[exitAt0.pc.toInt.toNat]? = some (slot 0x95#8 0#4 0#4) ∧ (slot 0x95#8 0#4 0#4).opcode ∈ knownOpcodes) := by
  decide

theorem witness_UnknownOpcodeFaults : unknownAt0.status = .running ∧
    unknownAt0.insnAt unknownAt0.pc.toInt = some (slot 0xd4#8 11#4 11#4) ∧ (slot 0xd4#8 11#4 11#4).opcode ∉ knownOpcodes := by
  decide

theorem witness_EndedRunDoesNotChange : exitAt0.terminate.status ≠ .running ∧
    (exitAt0.raise .divisionByZero 0#64).status ≠ .running := by decide

theorem witness_StepKeepsTheInvariant : movImmAt0.Inv ∧ after (step movImmAt0) State.pc = some 1#64 ∧
    -- at the edges of what the invariant lets pc be: the step there takes a fault
    { movImmAt0 with pc := -32768#64 }.Inv ∧ (faultOf (step { movImmAt0 with pc := -32768#64 })).isSome = true ∧
    { movImmAt0 with pc := 32767#64 }.Inv ∧ (faultOf (step { movImmAt0 with pc := 32767#64 })).isSome = true :=
  ⟨by decide, by decide, by decide, by decide, by decide, by decide⟩

theorem witness_LaunchMeetsTheInvariant : (List.replicate 9 (0x95#8 : Byte)).length < 8 * 2 ^ 62 ∧ 0 ≤ 2 ^ 62 ∧ 2 ^ 62 ≤ 2 ^ 62 := by
  decide

theorem witness_RunsKeepTheInvariant : divideByZeroAt0.Inv ∧ exitAt0.Inv ∧ State.reset.Inv :=
  ⟨by decide, by decide, by decide⟩

theorem witness_ParametersNeverChange : after (step movImmAt0) State.pc = some 1#64 ∧ statusOf (step exitAt0) = some .terminated := by
  decide

theorem witness_FaultsArePrecise : divideByZeroAt0.status = .running ∧ statusOf (step divideByZeroAt0) = some .faulted ∧
    unknownAt0.status = .running ∧ statusOf (step unknownAt0) = some .faulted ∧
    State.reset.status = .running ∧ statusOf (step State.reset) = some .faulted := by decide

theorem witness_EachFaultKindHasItsRaisers :
    movImmAt0.status ≠ .faulted ∧ statusOf (exec (.divReg 1#4 2#4) divideByZeroAt0) = some .faulted ∧
    statusOf (exec (.ldxb 0#4 1#4 0#16) (smallMemory 16#64)) = some .faulted ∧ (smallMemory 16#64).status ≠ .faulted ∧
    statusOf (exec (.lddw 10#4 0#32 none) movImmAt0) = some .faulted ∧
    statusOf (exec (.negReg 11#4) movImmAt0) = some .faulted ∧ statusOf (exec (.movReg 10#4 15#4) movImmAt0) = some .faulted := by
  decide

theorem witness_OnlyExitTerminates : exitAt0.status = .running ∧ statusOf (step exitAt0) = some .terminated ∧
    movImmAt0.status = .running ∧ statusOf (step movImmAt0) = some .running := by decide

theorem witness_CompletedStepMovesPcByTheRule :
    (movImmAt0.Inv ∧ movImmAt0.status = .running ∧ fetch movImmAt0 = .ok (.movImm 1#4 5#32) ∧
      statusOf (step movImmAt0) = some .running) ∧
    (exitAt0.Inv ∧ exitAt0.status = .running ∧ fetch exitAt0 = .ok .exit ∧ statusOf (step exitAt0) = some .terminated) :=
  ⟨⟨by decide, by decide, rfl, by decide⟩, by decide, by decide, rfl, by decide⟩

theorem witness_AtMostOneWritePerStep : after (step movImmAt0) (fun t => t.reg 1) = some 5#64 ∧ movImmAt0.reg 1 ≠ 5#64 := by decide

theorem witness_UsedFieldsAreCheckedDstFirst :
    (Instr.addReg 11#4 15#4).dst? = some 11#4 ∧ 10 < (11#4).toNat ∧
    (Instr.addReg 10#4 11#4).src? = some 11#4 ∧ (Instr.addReg 10#4 11#4).dst? = some 10#4 ∧ (10#4).toNat ≤ 10 := by decide

theorem witness_OnlyStoresWriteMemory :
    after (exec (.stb 1#4 15#16 1#32) (smallMemory 0#64)) (fun t => t.mem.read 15) = some 1#8 ∧
    (smallMemory 0#64).mem.read 15 ≠ 1#8 := by decide

theorem witness_OnlyLoadsDependOnMemory : (Instr.stxw 1#4 2#4 0#16).isLoad = false ∧ (Instr.movReg 1#4 2#4).isLoad = false ∧
    (Instr.movReg 1#4 2#4).isStore = false := by decide

theorem witness_LinkRegMattersOnlyToCall : ∀ o, Instr.ja 4#16 ≠ .call o := by
  intro o h
  cases h

theorem witness_RaiseIsTheFaultEntry : (List.replicate 7 (0#8 : Byte)).length % 8 ≠ 0 ∧
    (List.replicate 9 (0#8 : Byte)).length % 8 ≠ 0 := by decide

/-- Immediate and register forms: dst and src at 0 and 10, dst at 11 and 15, src at 11 behind a dst of 10. -/
theorem witness_AddAndSubtractWrapTheExactResult : (slot 0x07#8 0#4 0#4).opcode = 0x07#8 ∧ (slot 0x1f#8 0#4 0#4).opcode = 0x1f#8 ∧
    (0#4 : RegField).toNat = (0 : RegIdx).val ∧ (10#4 : RegField).toNat = (10 : RegIdx).val ∧
    10 < (11#4).toNat ∧ 10 < (15#4).toNat ∧ (10#4).toNat ≤ 10 := by decide

theorem witness_MultiplyWrapsTheExactProduct : (slot 0x27#8 0#4 0#4).opcode = 0x27#8 ∧ (slot 0x2f#8 0#4 0#4).opcode = 0x2f#8 ∧
    (10#4 : RegField).toNat = (10 : RegIdx).val ∧ 10 < (11#4).toNat ∧ (10#4).toNat ≤ 10 := by decide

theorem witness_DivideAndModuloTruncateOrFault :
    (slot 0x37#8 0#4 0#4).opcode = 0x37#8 ∧ (slot 0x9f#8 0#4 0#4).opcode = 0x9f#8 ∧
    (10#4 : RegField).toNat = (10 : RegIdx).val ∧ (2#4 : RegField).toNat = (2 : RegIdx).val ∧
    (0xFFFFFFFF#32) ≠ 0#32 ∧ (1#32) ≠ 0#32 ∧ divideByZeroAt0.reg 2 = 0#64 ∧ divideByZeroAt0.reg 1 ≠ 0#64 ∧
    (10#4).toNat ≤ 10 ∧ 10 < (11#4).toNat := by decide

theorem witness_QuotientAndRemainderRecombine : (1#4 : RegField).toNat = (1 : RegIdx).val ∧ (2#4 : RegField).toNat = (2 : RegIdx).val ∧
    (machine 0 [] 0#64 0x8000000000000000#64 0xFFFFFFFFFFFFFFFF#64).reg 2 ≠ 0#64 ∧
    (machine 0 [] 0#64 0x8000000000000000#64 0xFFFFFFFFFFFFFFFF#64).reg 1 = BitVec.intMin 64 ∧
    (machine 0 [] 0#64 0x8000000000000000#64 0xFFFFFFFFFFFFFFFF#64).reg 2 = -1#64 ∧
    (machine 0 [] 0#64 0#64 1#64).reg 2 ≠ 0#64 ∧ 0 ≤ ((machine 0 [] 0#64 0#64 1#64).reg 1).toInt := by decide

theorem witness_OrAndXorAreBitwise : (slot 0x47#8 0#4 0#4).opcode = 0x47#8 ∧ (slot 0xaf#8 0#4 0#4).opcode = 0xaf#8 ∧
    (10#4 : RegField).toNat = (10 : RegIdx).val ∧ 10 < (11#4).toNat ∧ (10#4).toNat ≤ 10 := by decide

theorem witness_LogicalShiftsMultiplyAndDivide : (slot 0x67#8 0#4 0#4).opcode = 0x67#8 ∧ (slot 0x7f#8 0#4 0#4).opcode = 0x7f#8 ∧
    (10#4 : RegField).toNat = (10 : RegIdx).val ∧ 10 < (11#4).toNat ∧ (10#4).toNat ≤ 10 := by decide

theorem witness_ArithmeticShiftFloors : (slot 0xc7#8 0#4 0#4).opcode = 0xc7#8 ∧ (slot 0xcf#8 0#4 0#4).opcode = 0xcf#8 ∧
    (10#4 : RegField).toNat = (10 : RegIdx).val ∧ 10 < (11#4).toNat ∧ (10#4).toNat ≤ 10 := by decide

theorem witness_NegateIgnoresEverythingButDst : (slot 0x87#8 0#4 15#4).opcode = 0x87#8 ∧ (slot 0x8f#8 0#4 15#4).opcode = 0x8f#8 ∧
    (10#4 : RegField).toNat = (10 : RegIdx).val ∧ 10 < (11#4).toNat := by decide

theorem witness_MoveCopiesTheOperand : (slot 0xb7#8 0#4 0#4).opcode = 0xb7#8 ∧ (slot 0xbf#8 0#4 0#4).opcode = 0xbf#8 ∧
    (10#4 : RegField).toNat = (10 : RegIdx).val ∧ 10 < (11#4).toNat ∧ (10#4).toNat ≤ 10 := by decide

/-- The capacity is 16: 8 bytes at 8 fit, at 9 and at -1 they do not. -/
theorem witness_MemReadJoinsTheBytes : 8 ∈ [1, 2, 4, 8] ∧ ((-1 : Int) < 0) ∧ ((smallMemory 0#64).memCap : Int) < 9 + 8 ∧
    (0 : Int) ≤ 8 ∧ (8 : Int) + 8 ≤ (smallMemory 0#64).memCap ∧ (0 : Int) + 1 ≤ (smallMemory 0#64).memCap := by decide

theorem witness_MemWriteStoresTheBytesOrNone : 8 ∈ [1, 2, 4, 8] ∧ (smallMemory 0#64).mem.wf = true ∧ ((-1 : Int) < 0) ∧
    ((smallMemory 0#64).memCap : Int) < 9 + 8 ∧ (0 : Int) ≤ 8 ∧ (8 : Int) + 8 ≤ (smallMemory 0#64).memCap := by decide

theorem witness_WrappedBoundsCheckAgrees : 1 ∈ [1, 2, 4, 8] ∧ 8 ∈ [1, 2, 4, 8] ∧
    { State.reset with memCap := 2 ^ 62 }.memCap ≤ 2 ^ 62 ∧ { State.reset with memCap := 0 }.memCap ≤ 2 ^ 62 := by decide

theorem witness_MemoryWritesKeepTheCanonicalForm : Memory.wf [] = true ∧ Memory.wf loadBytes = true ∧
    ∀ a, Memory.read loadBytes a = Memory.read loadBytes a :=
  ⟨by decide, by decide, fun _ => rfl⟩

/-- With x[1] = 8 and a capacity of 16, LDXDW at offset 0 is the last one admitted, at 1 the first one past the end, at -9 below 0. -/
theorem witness_LoadsReadAndWidenTheBytes : (slot 0x61#8 0#4 0#4).opcode = 0x61#8 ∧ (10#4 : RegField).toNat = (10 : RegIdx).val ∧
    (1#4 : RegField).toNat = (1 : RegIdx).val ∧ 0 ≤ (smallMemory 8#64).effectiveAddress 1 0#16 ∧
    (smallMemory 8#64).effectiveAddress 1 0#16 + 8 ≤ (smallMemory 8#64).memCap ∧
    ((smallMemory 8#64).memCap : Int) < (smallMemory 8#64).effectiveAddress 1 1#16 + 8 ∧
    (smallMemory 8#64).effectiveAddress 1 0xFFF7#16 < 0 ∧ (10#4).toNat ≤ 10 ∧ 10 < (11#4).toNat := by decide

theorem witness_StoreImmediatesWriteTheirBytes : (slot 0x62#8 0#4 0#4).opcode = 0x62#8 ∧ (smallMemory 12#64).mem.wf = true ∧
    (1#4 : RegField).toNat = (1 : RegIdx).val ∧ 0 ≤ (smallMemory 12#64).effectiveAddress 1 0#16 ∧
    (smallMemory 12#64).effectiveAddress 1 0#16 + 4 ≤ (smallMemory 12#64).memCap ∧
    ((smallMemory 12#64).memCap : Int) < (smallMemory 12#64).effectiveAddress 1 1#16 + 4 ∧
    (smallMemory 12#64).effectiveAddress 1 0xFFF3#16 < 0 ∧ 10 < (11#4).toNat := by decide

theorem witness_StoreRegistersWriteTheirBytes : (slot 0x6b#8 0#4 0#4).opcode = 0x6b#8 ∧ (smallMemory 14#64).mem.wf = true ∧
    (1#4 : RegField).toNat = (1 : RegIdx).val ∧ (2#4 : RegField).toNat = (2 : RegIdx).val ∧
    0 ≤ (smallMemory 14#64).effectiveAddress 1 0#16 ∧
    (smallMemory 14#64).effectiveAddress 1 0#16 + 2 ≤ (smallMemory 14#64).memCap ∧
    ((smallMemory 14#64).memCap : Int) < (smallMemory 14#64).effectiveAddress 1 1#16 + 2 ∧
    (smallMemory 14#64).effectiveAddress 1 0xFFF1#16 < 0 ∧ (10#4).toNat ≤ 10 ∧ 10 < (11#4).toNat := by decide

theorem witness_StoreThenLoadReturnsTheValue : (smallMemory 8#64).mem.wf = true ∧ (1#4 : RegField).toNat = (1 : RegIdx).val ∧
    (2#4 : RegField).toNat = (2 : RegIdx).val ∧ (10#4 : RegField).toNat = (10 : RegIdx).val ∧
    0 ≤ (smallMemory 8#64).effectiveAddress 1 0#16 ∧
    (smallMemory 8#64).effectiveAddress 1 0#16 + 8 ≤ (smallMemory 8#64).memCap ∧
    (smallMemory 8#64).effectiveAddress 1 4#16 + 4 ≤ (smallMemory 8#64).memCap ∧
    (smallMemory 8#64).effectiveAddress 1 6#16 + 2 ≤ (smallMemory 8#64).memCap ∧
    (smallMemory 8#64).effectiveAddress 1 7#16 + 1 ≤ (smallMemory 8#64).memCap := by decide

/-- The two slots of LDDW r1, 0x1122334455667788 at pc 0, and the three forms of a single instruction. -/
theorem witness_LddwJoinsTwoSlots :
    let s : State := { State.reset with prog := [encodeSlot (.lddw 1#4 0x55667788#32 none), secondSlot 0x11223344#32] }
    (10#4 : RegField).toNat = (10 : RegIdx).val ∧ (10#4).toNat ≤ 10 ∧ 10 < (11#4).toNat ∧
    s.status = .running ∧ (1#4 : RegField).toNat = (1 : RegIdx).val ∧
    s.insnAt s.pc.toInt = some (encodeSlot (.lddw 1#4 ((0x1122334455667788#64).extractLsb' 0 32) none)) ∧
    s.insnAt (s.pc.toInt + 1) = some (secondSlot 0x11223344#32) ∧
    (secondSlot 0x11223344#32).imm = (0x1122334455667788#64).extractLsb' 32 32 := by decide

theorem witness_JumpAlwaysAddsTheOffset : (slot 0x05#8 15#4 15#4).opcode = 0x05#8 ∧
    -2 ^ 63 ≤ movImmAt0.pc.toInt + (0xFFFF#16).toInt ∧ movImmAt0.pc.toInt + (0xFFFF#16).toInt < 2 ^ 63 ∧
    movImmAt0.status = .running ∧
    after (exec (.ja 0xFFFF#16) movImmAt0) (fun t => decide (t.pc.toInt < 0)) = some true ∧
    after (exec (.ja 1#16) movImmAt0) (fun t => decide ((t.prog.length : Int) ≤ t.pc.toInt)) = some true := by decide

theorem witness_EqualityJumpsCompareAllBits : (slot 0x15#8 0#4 0#4).opcode = 0x15#8 ∧ (10#4 : RegField).toNat = (10 : RegIdx).val ∧
    (∀ k, (State.reset.reg 10).getLsbD k = ((0#32).signExtend 64).getLsbD k) ∧
    (State.reset.reg 10).getLsbD 63 ≠ ((0xFFFFFFFF#32).signExtend 64).getLsbD 63 ∧ (10#4).toNat ≤ 10 ∧ 10 < (11#4).toNat :=
  ⟨by decide, by decide, fun _ => rfl, by decide, by decide, by decide⟩

theorem witness_DefaultOrderJumpsAreUnsigned : (slot 0x25#8 0#4 0#4).opcode = 0x25#8 ∧ (1#4 : RegField).toNat = (1 : RegIdx).val ∧
    ((1#32).signExtend 64).toNat < ((machine 0 [] 0#64 0xFFFFFFFFFFFFFFFF#64 0#64).reg 1).toNat ∧
    ¬ ((0xFFFFFFFF#32).signExtend 64).toNat < ((machine 0 [] 0#64 0xFFFFFFFFFFFFFFFF#64 0#64).reg 1).toNat ∧
    ((0xFFFFFFFF#32).signExtend 64).toNat ≤ ((machine 0 [] 0#64 0xFFFFFFFFFFFFFFFF#64 0#64).reg 1).toNat ∧
    (10#4).toNat ≤ 10 ∧ 10 < (11#4).toNat := by decide

theorem witness_SignedOrderJumpsAreSigned : (slot 0x65#8 0#4 0#4).opcode = 0x65#8 ∧ (1#4 : RegField).toNat = (1 : RegIdx).val ∧
    ((0x80000000#32).signExtend 64).toInt < ((machine 0 [] 0#64 0xFFFFFFFFFFFFFFFF#64 0#64).reg 1).toInt ∧
    ¬ ((1#32).signExtend 64).toInt < ((machine 0 [] 0#64 0xFFFFFFFFFFFFFFFF#64 0#64).reg 1).toInt ∧
    ((0xFFFFFFFF#32).signExtend 64).toInt ≤ ((machine 0 [] 0#64 0xFFFFFFFFFFFFFFFF#64 0#64).reg 1).toInt ∧
    (10#4).toNat ≤ 10 ∧ 10 < (11#4).toNat := by decide

theorem witness_BitTestJumpsFindACommonBit : (slot 0x45#8 0#4 0#4).opcode = 0x45#8 ∧ (1#4 : RegField).toNat = (1 : RegIdx).val ∧
    (∃ k, ((machine 0 [] 0#64 0x8000000000000000#64 0#64).reg 1).getLsbD k = true ∧
      ((0xFFFFFFFF#32).signExtend 64).getLsbD k = true) ∧
    (¬ ∃ k, (State.reset.reg 1).getLsbD k = true ∧ ((0xFFFFFFFF#32).signExtend 64).getLsbD k = true) ∧
    (10#4).toNat ≤ 10 ∧ 10 < (11#4).toNat := by
  refine ⟨by decide, by decide, ⟨63, by decide⟩, fun ⟨k, h, _⟩ => ?_, by decide, by decide⟩
  have h0 : State.reset.reg 1 = 0#64 := by decide
  simp [h0] at h

theorem witness_ComplementaryJumpsTakeOneOfTwo : (10#4).toNat ≤ 10 ∧ (0#4).toNat ≤ 10 ∧
    (Instr.jeqReg 10#4 0#4 0x8000#16, Instr.jneReg 10#4 0#4 0x8000#16) ∈
      [(Instr.jeqReg 10#4 0#4 0x8000#16, Instr.jneReg 10#4 0#4 0x8000#16)] := by decide

theorem witness_CallLinksAndJumps : (slot 0x85#8 15#4 15#4).opcode = 0x85#8 ∧ { State.reset with linkReg := 10 }.linkReg = 10 ∧
    State.reset.linkReg = 0 := by decide

theorem witness_ExitOnlyTerminates : (slot 0x95#8 15#4 15#4).opcode = 0x95#8 := by decide

theorem witness_LaunchZeroesRegistersAndStartsAtIndexZero : ([] : List Byte).length % 8 = 0 ∧
    (List.replicate 48 (0x95#8 : Byte)).length % 8 = 0 := by decide

theorem witness_LaunchedMemoryAndDescriptorAreClear : ([] : List Byte).length % 8 = 0 ∧
    (List.replicate 8 (0x95#8 : Byte)).length % 8 = 0 := by decide

theorem witness_MalformedInputRunsNothing : (List.replicate 7 (0x95#8 : Byte)).length % 8 ≠ 0 ∧
    (List.replicate 9 (0x95#8 : Byte)).length % 8 ≠ 0 := by decide

/-- The fault descriptor is NONE, 0, 0 in the result of a TERMINATED run, and readable there (D30). -/
theorem test_result_terminated :
    (result exitAt0.terminate).map (fun r => (r.status, r.faultKind, r.faultIndex, r.faultInfo)) =
      some (.terminated, .noFault, 0#64, 0#64) := by decide

theorem witness_ResultIsVisibleOnlyAtTheEnd : exitAt0.status = .running ∧ exitAt0.terminate.status = .terminated ∧
    (exitAt0.raise .divisionByZero 0#64).status = .faulted := by decide

end Sys2Proof.Tests
end

section
/-! Runs: what `runSteps` does by the answer of its first step, the induction over a run said once, and with them the statements about the scope of a run
(spec 00_scope.md R8, R9; 70_reset_and_hazards.md R202). -/

namespace Sys2Proof.Machine

/-- A step that answers a next state is the first one of a longer run. -/
theorem runSteps_succ_of_next {s t : State} (h : step s = .next t) (k : Nat) : runSteps (k + 1) s = runSteps k t := by
  simp [runSteps, h]

/-- No step follows a terminal state (R70), so a run from it stays there. -/
theorem runSteps_of_not_running {s : State} (h : s.status ≠ .running) (k : Nat) : runSteps k s = s := by
  cases k with
  | zero => rfl
  | succ k => simp [runSteps, step_of_not_running h]

/-- The induction over a run: what every step keeps, a run of any length keeps. -/
theorem runSteps_keeps {P : State → Prop} (hstep : ∀ s t, P s → step s = .next t → P t) (k : Nat) (s : State) (hs : P s) :
    P (runSteps k s) := by
  induction k generalizing s with
  | zero => exact hs
  | succ k ih =>
    cases h : step s with
    | next t =>
      rw [runSteps_succ_of_next h]
      exact ih t (hstep s t hs h)
    | fault r => simpa [runSteps, h] using hs
    | refused r => simpa [runSteps, h] using hs

/-- No step changes a parameter of the run: neither the faults of the fetch nor the execution of an instruction (R9). -/
theorem step_sameRun {s t : State} (h : step s = .next t) : SameRun s t := by
  obtain ⟨-, ⟨-, rfl⟩ | ⟨r, opcode, -, -, rfl⟩ | ⟨r, i, -, -, -, hexec⟩⟩ := step_cases h
  · exact ⟨rfl, rfl, rfl⟩
  · exact ⟨rfl, rfl, rfl⟩
  · exact (effect_of_exec hexec).sameRun

theorem SameRun.trans {s t u : State} (hst : SameRun s t) (htu : SameRun t u) : SameRun s u := by
  obtain ⟨hprog, hcap, hlink⟩ := hst
  obtain ⟨hprog', hcap', hlink'⟩ := htu
  exact ⟨hprog'.trans hprog, hcap'.trans hcap, hlink'.trans hlink⟩

/-- A run of any length leaves the parameters it was launched with (R9). -/
theorem runSteps_sameRun (k : Nat) (s : State) : SameRun s (runSteps k s) :=
  runSteps_keeps (P := SameRun s) (fun _ _ hsame h => hsame.trans (step_sameRun h)) k s ⟨rfl, rfl, rfl⟩

/-- Settles O17: the step part reads off what a step can do, the run part is the induction over the run. -/
theorem parametersNeverChange : Obligations.ParametersNeverChange :=
  ⟨fun _ _ h => step_sameRun h, runSteps_sameRun⟩

/-- The host sees nothing exactly while the run goes on (R8). -/
theorem result_eq_none_iff (s : State) : result s = none ↔ s.status = .running := by
  rcases result_cases s with ⟨hs, h⟩ | ⟨hs, h⟩ <;> simp [hs, h]

/-- In both terminal states the host sees the state's read-out (R202, D30). -/
theorem result_of_not_running {s : State} (h : s.status ≠ .running) : result s = some s.readOut := by
  rcases result_cases s with ⟨hs, -⟩ | ⟨-, hr⟩
  · exact absurd hs h
  · exact hr

/-- Settles O57: the result of a terminal state is its read-out, and no further step changes that state. -/
theorem resultIsVisibleOnlyAtTheEnd : Obligations.ResultIsVisibleOnlyAtTheEnd := by
  intro s
  refine ⟨result_eq_none_iff s, fun hs => ⟨⟨s.readOut, result_of_not_running hs, ?_⟩, fun k => ?_⟩⟩
  · exact ⟨rfl, rfl, rfl, rfl, rfl, rfl, rfl⟩
  · rw [runSteps_of_not_running hs]

end Sys2Proof.Machine
end

section
/-! The effect of an instruction, read further: what it leaves of data memory and where it leaves pc and the fault descriptor. The
statements about data memory follow (spec 10_state.md R19, R25; 20_memory.md R30). -/

namespace Sys2Proof.Machine

variable {i : Instr} {s t : State}

/-- An instruction either takes a fault or completes: pc goes where its rule says, the descriptor stays, and the machine goes on or ends. -/
theorem Effect.raised_or_completed (h : Effect i s t) :
    (∃ kind info, FaultCause i kind info ∧ t = s.raise kind info) ∨
    (PcNext i s t.pc ∧ SameFault s t ∧ (t.status = s.status ∨ t.status = .terminated)) := by
  cases h with
  | fault why => exact .inl ⟨_, _, why, rfl⟩
  | reg d v p hp => exact .inr ⟨hp, ⟨rfl, rfl, rfl⟩, .inl rfl⟩
  | jump p hp => exact .inr ⟨hp, ⟨rfl, rfl, rfl⟩, .inl rfl⟩
  | store a n v _ _ hp => exact .inr ⟨hp, ⟨rfl, rfl, rfl⟩, .inl rfl⟩
  | exit isExit =>
    subst isExit
    exact .inr ⟨rfl, ⟨rfl, rfl, rfl⟩, .inr rfl⟩

/-- An instruction carries data memory through, or is a store that completes and writes nothing else but pc. -/
theorem Effect.mem_eq_or_store (h : Effect i s t) :
    t.mem = s.mem ∨ (i.isStore = true ∧ t.status = s.status ∧ SameRegs s t) := by
  cases h with
  | fault why => exact .inl rfl
  | reg d v p => exact .inl rfl
  | jump p => exact .inl rfl
  | store a n v isStore => exact .inr ⟨isStore, rfl, fun _ => rfl⟩
  | exit isExit => exact .inl rfl

/-- An instruction that is no store carries data memory through. -/
theorem Effect.mem_of_not_store (h : Effect i s t) (hs : i.isStore = false) : t.mem = s.mem := by
  rcases h.mem_eq_or_store with hm | ⟨hst, -⟩
  · exact hm
  · simp [hs] at hst

/-- Every instruction keeps the canonical form of data memory. -/
theorem Effect.mem_wf (h : Effect i s t) (hm : s.mem.wf = true) : t.mem.wf = true := by
  cases h with
  | fault why => exact hm
  | reg d v p => exact hm
  | jump p => exact hm
  | store a n v => exact Memory.wf_writeBytes s.mem a n v hm
  | exit isExit => exact hm

/-- Every instruction keeps data memory inside MEM_CAP: a store has passed its bounds check (R35). -/
theorem Effect.mem_inside (h : Effect i s t) (hm : ∀ c ∈ s.mem, c.1 < s.memCap) : ∀ c ∈ t.mem, c.1 < t.memCap := by
  cases h with
  | fault why => exact hm
  | reg d v p => exact hm
  | jump p => exact hm
  | store a n v _ inside =>
    intro c hc
    rcases Memory.mem_writeBytes s.mem a n v c hc with hc | ⟨-, hlt⟩
    · exact hm c hc
    · exact Nat.lt_of_lt_of_le hlt inside
  | exit isExit => exact hm

/-- Settles O24: the effect that does not carry memory through is that of a store. -/
theorem onlyStoresWriteMemory : Obligations.OnlyStoresWriteMemory := by
  intro i s t h hchanged
  rcases (effect_of_exec h).mem_eq_or_store with hm | hstore
  · exact absurd (fun a => by rw [hm]) hchanged
  · exact hstore

/-- In a canonical memory only the addresses from its start on read as anything but unlisted. -/
theorem Memory.le_of_read_ne {m : Memory} {lo a : Nat} (h : Memory.wfFrom lo m = true)
    (hr : m.read a ≠ Config.unlistedByte) : lo ≤ a :=
  Nat.le_of_not_lt fun ha => hr (Memory.read_of_lt m lo a h ha)

theorem Memory.wfFrom_cons_iff {lo k : Nat} {b : Byte} {rest : Memory} :
    Memory.wfFrom lo ((k, b) :: rest) = true ↔
      lo ≤ k ∧ b ≠ Config.unlistedByte ∧ Memory.wfFrom (k + 1) rest = true := by
  simp [Memory.wfFrom, and_assoc]

@[simp] theorem Memory.read_head (k : Nat) (b : Byte) (rest : Memory) : Memory.read ((k, b) :: rest) k = b := by
  simp [Memory.read]

theorem Memory.read_tail {a k : Nat} (b : Byte) (rest : Memory) (h : a ≠ k) :
    Memory.read ((k, b) :: rest) a = rest.read a := by
  simp [Memory.read, h]

/-- Of two canonical memories that read the same, the second starts no later than the first's first entry. -/
theorem Memory.head_le_head {k k' : Nat} {b b' : Byte} {rest rest' : Memory} (hb : b ≠ Config.unlistedByte)
    (h' : Memory.wfFrom (k' + 1) rest' = true)
    (hread : ∀ a, Memory.read ((k, b) :: rest) a = Memory.read ((k', b') :: rest') a) : k' ≤ k := by
  by_cases hk : k = k'
  · exact Nat.le_of_eq hk.symm
  · have hne : rest'.read k ≠ Config.unlistedByte := by
      rw [← Memory.read_tail b' rest' hk, ← hread k, Memory.read_head]
      exact hb
    have := Memory.le_of_read_ne h' hne
    omega

/-- A canonical memory is determined by what it reads. -/
theorem Memory.eq_of_read_eq {lo lo' : Nat} {m m' : Memory} (h : Memory.wfFrom lo m = true) (h' : Memory.wfFrom lo' m' = true)
    (hread : ∀ a, m.read a = m'.read a) : m = m' := by
  induction m generalizing lo lo' m' with
  | nil =>
    cases m' with
    | nil => rfl
    | cons c' rest' =>
      obtain ⟨k', b'⟩ := c'
      obtain ⟨-, hb', -⟩ := Memory.wfFrom_cons_iff.mp h'
      exact absurd ((hread k').trans (Memory.read_head k' b' rest')).symm hb'
  | cons c rest ih =>
    obtain ⟨k, b⟩ := c
    obtain ⟨-, hb, hr⟩ := Memory.wfFrom_cons_iff.mp h
    cases m' with
    | nil => exact absurd ((Memory.read_head k b rest).symm.trans (hread k)) hb
    | cons c' rest' =>
      obtain ⟨k', b'⟩ := c'
      obtain ⟨-, hb', hr'⟩ := Memory.wfFrom_cons_iff.mp h'
      have hk : k = k' :=
        Nat.le_antisymm (Memory.head_le_head hb' hr fun a => (hread a).symm) (Memory.head_le_head hb hr' hread)
      subst hk
      have hbyte : b = b' := by simpa using hread k
      have hrest : rest = rest' := by
        refine ih hr hr' fun a => ?_
        by_cases ha : a = k
        · subst ha
          rw [Memory.read_of_lt rest _ a hr (Nat.lt_succ_self a), Memory.read_of_lt rest' _ a hr' (Nat.lt_succ_self a)]
        · rw [← Memory.read_tail b rest ha, ← Memory.read_tail b' rest' ha, hread a]
      rw [hbyte, hrest]

/-- Settles O40: a byte write is the write of Laws/Memory, and the second part is extensionality of the canonical form. -/
theorem memoryWritesKeepTheCanonicalForm : Obligations.MemoryWritesKeepTheCanonicalForm :=
  ⟨fun m a b h => Memory.wfFrom_write m 0 a b h (Nat.zero_le a), fun _ _ h h' hread => Memory.eq_of_read_eq h h' hread⟩

end Sys2Proof.Machine
end

section
/-! The invariant: a completed instruction moves pc as an exact integer, a fault fills the descriptor as R180 says, so every step keeps
`State.Inv` (spec 10_state.md R13, R14, R17). -/

namespace Sys2Proof.Machine

variable {i : Instr} {s t : State}

/-- A sum of words that fits into the signed 64-bit range is exact. -/
theorem toInt_add_of_fits {a b : Word} (hlo : -2 ^ 63 ≤ a.toInt + b.toInt) (hhi : a.toInt + b.toInt < 2 ^ 63) :
    (a + b).toInt = a.toInt + b.toInt := by
  rw [BitVec.toInt_add]
  exact Int.bmod_eq_of_le (by omega) (by omega)

/-- A signed offset is a 16-bit number. -/
theorem offset_toInt_bounds (o : Offset) : -32768 ≤ o.toInt ∧ o.toInt < 32768 :=
  ⟨BitVec.le_toInt o, BitVec.toInt_lt⟩

/-- An index of a program within the spec's bound is far from the ends of the signed 64-bit range (R5, R13). -/
def InProgramRange (pc : Word) : Prop := 0 ≤ pc.toInt ∧ pc.toInt < 2 ^ 62

theorem InProgramRange.add_one {pc p : Word} (h : InProgramRange pc) (hp : p = pc + 1#64) : pc.toInt + 1 = p.toInt := by
  obtain ⟨hlo, hhi⟩ := h
  have hone : (1#64).toInt = 1 := by decide
  rw [hp, toInt_add_of_fits (by omega) (by omega), hone]

theorem InProgramRange.add_two {pc p : Word} (h : InProgramRange pc) (hp : p = pc + 2#64) : pc.toInt + 2 = p.toInt := by
  obtain ⟨hlo, hhi⟩ := h
  have htwo : (2#64).toInt = 2 := by decide
  rw [hp, toInt_add_of_fits (by omega) (by omega), htwo]

theorem InProgramRange.add_offset {pc p : Word} {o : Offset} (h : InProgramRange pc) (hp : p = pc + o.signExtend 64) :
    pc.toInt + o.toInt = p.toInt := by
  obtain ⟨hlo, hhi⟩ := h
  obtain ⟨holo, hohi⟩ := offset_toInt_bounds o
  have hext : (o.signExtend 64).toInt = o.toInt := BitVec.toInt_signExtend_of_le (by decide)
  rw [hp, toInt_add_of_fits (by omega) (by omega), hext]

/-- Inside a program the words `PcNext` names are the exact integers `PcMoves` names: no sum wraps (R13, R14). -/
theorem PcNext.pcMoves {p : Word} (h : PcNext i s p) (hpc : InProgramRange s.pc) : PcMoves i s.pc.toInt p.toInt := by
  cases i with
  | exit => exact congrArg BitVec.toInt h.symm
  | lddw dst lo hi => exact hpc.add_two h.2
  | ja o | call o => exact hpc.add_offset h
  | jeqImm _ _ o | jeqReg _ _ o | jneImm _ _ o | jneReg _ _ o | jsetImm _ _ o | jsetReg _ _ o
  | jgtImm _ _ o | jgtReg _ _ o | jgeImm _ _ o | jgeReg _ _ o | jltImm _ _ o | jltReg _ _ o | jleImm _ _ o | jleReg _ _ o
  | jsgtImm _ _ o | jsgtReg _ _ o | jsgeImm _ _ o | jsgeReg _ _ o | jsltImm _ _ o | jsltReg _ _ o
  | jsleImm _ _ o | jsleReg _ _ o => exact Or.imp hpc.add_one hpc.add_offset h
  | _ => exact hpc.add_one h

/-- No instruction moves pc further than a 16-bit offset reaches. -/
theorem PcMoves.near {a b : Int} (h : PcMoves i a b) : a - 32768 ≤ b ∧ b ≤ a + 32767 := by
  have hoff : ∀ o : Offset, a + o.toInt = b → a - 32768 ≤ b ∧ b ≤ a + 32767 := by
    intro o ho
    have := offset_toInt_bounds o
    omega
  have hone : a + 1 = b → a - 32768 ≤ b ∧ b ≤ a + 32767 := by omega
  cases i with
  | exit => simp only [PcMoves] at h; omega
  | lddw dst lo hi => simp only [PcMoves] at h; omega
  | ja o | call o => exact hoff o h
  | jeqImm _ _ o | jeqReg _ _ o | jneImm _ _ o | jneReg _ _ o | jsetImm _ _ o | jsetReg _ _ o
  | jgtImm _ _ o | jgtReg _ _ o | jgeImm _ _ o | jgeReg _ _ o | jltImm _ _ o | jltReg _ _ o | jleImm _ _ o | jleReg _ _ o
  | jsgtImm _ _ o | jsgtReg _ _ o | jsgeImm _ _ o | jsgeReg _ _ o | jsltImm _ _ o | jsltReg _ _ o
  | jsleImm _ _ o | jsleReg _ _ o => exact Or.elim h hone (hoff o)
  | _ => exact hone h

/-- An index at which a record stands, in a state that meets the invariant. -/
theorem inProgramRange_of_insnAt {r : Record} (hs : s.Inv) (hr : s.insnAt s.pc.toInt = some r) : InProgramRange s.pc := by
  obtain ⟨-, -, -, hlen, -⟩ := hs
  obtain ⟨hlo, hhi⟩ := insnAt_eq_some hr
  have hbound : Config.sizeBound = 2 ^ 62 := rfl
  exact ⟨hlo, by omega⟩

/-- Settles O21: where a completed instruction leaves pc is `PcNext`, and inside the program that is exact. -/
theorem completedStepMovesPcByTheRule : Obligations.CompletedStepMovesPcByTheRule := by
  intro s t i hs hrun hfetch hstep hok
  obtain ⟨-, ⟨-, rfl⟩ | ⟨r, opcode, -, -, rfl⟩ | ⟨r, j, hr, -, hfetch', hexec⟩⟩ := step_cases hstep
  · exact absurd rfl hok
  · exact absurd rfl hok
  · obtain rfl : i = j := Except.ok.inj (hfetch.symm.trans hfetch')
    rcases (effect_of_exec hexec).raised_or_completed with ⟨kind, info, -, rfl⟩ | ⟨hpc, -, -⟩
    · exact absurd rfl hok
    · exact hpc.pcMoves (inProgramRange_of_insnAt hs hr)

/-- What R180 asks of the kind and the information of a fault that a step takes. -/
structure InfoFits (kind : FaultKind) (info : Word) : Prop where
  raised : kind ≠ .noFault
  notAtLaunch : kind ≠ .malformedInput
  opcodeByte : kind = .unknownOpcode → info.toNat < 256
  fieldValue : kind = .invalidRegister → 11 ≤ info.toNat ∧ info.toNat ≤ 15
  otherwise : kind ≠ .unknownOpcode → kind ≠ .invalidRegister → info = 0#64

/-- A kind that carries no information reports 0. -/
theorem infoFits_zero {kind : FaultKind} (h0 : kind ≠ .noFault) (h1 : kind ≠ .malformedInput) (h2 : kind ≠ .unknownOpcode)
    (h3 : kind ≠ .invalidRegister) : InfoFits kind 0#64 :=
  ⟨h0, h1, fun h => absurd h h2, fun h => absurd h h3, fun _ _ => rfl⟩

theorem infoFits_unknownOpcode (opcode : Byte) : InfoFits .unknownOpcode (opcode.setWidth 64) where
  raised := by decide
  notAtLaunch := by decide
  opcodeByte _ := by
    rw [BitVec.toNat_setWidth_of_le (by decide)]
    exact opcode.isLt
  fieldValue h := by cases h
  otherwise h := absurd rfl h

theorem infoFits_invalidRegister {f : RegField} (h : 10 < f.toNat) : InfoFits .invalidRegister (f.setWidth 64) where
  raised := by decide
  notAtLaunch := by decide
  opcodeByte h := by cases h
  fieldValue _ := by
    rw [BitVec.toNat_setWidth_of_le (by decide)]
    have := f.isLt
    omega
  otherwise _ h := absurd rfl h

theorem FaultCause.infoFits {kind : FaultKind} {info : Word} (h : FaultCause i kind info) : InfoFits kind info := by
  cases h with
  | badRegister used high => exact infoFits_invalidRegister high
  | zeroDivisor => exact infoFits_zero (by decide) (by decide) (by decide) (by decide)
  | outOfBounds => exact infoFits_zero (by decide) (by decide) (by decide) (by decide)
  | noSecondSlot => exact infoFits_zero (by decide) (by decide) (by decide) (by decide)

/-- The fault entry of R186 leaves a descriptor that says what its kind must say. -/
theorem descriptorOk_raise {kind : FaultKind} {info : Word} (h : InfoFits kind info) : (s.raise kind info).DescriptorOk :=
  ⟨fun hs => absurd rfl hs, fun _ => h.raised, fun _ _ => rfl, fun hk => absurd hk h.notAtLaunch, h.opcodeByte,
    h.fieldValue, h.otherwise⟩

/-- A descriptor that holds NONE, 0, 0 is right while no fault has occurred (R17). -/
theorem descriptorOk_of_noFault (hs : s.status ≠ .faulted) (hkind : s.faultKind = .noFault) (hindex : s.faultIndex = 0#64)
    (hinfo : s.faultInfo = 0#64) : s.DescriptorOk := by
  refine ⟨fun _ => ⟨hkind, hindex, hinfo⟩, fun h => absurd h hs, fun h => absurd h hs, ?_, ?_, ?_, fun _ _ => hinfo⟩ <;>
    intro h <;> simp [hkind] at h

/-- Taking a fault keeps the invariant: only status and descriptor are written. -/
theorem inv_raise {kind : FaultKind} {info : Word} (hs : s.Inv) (h : InfoFits kind info) : (s.raise kind info).Inv := by
  obtain ⟨hwf, hinside, hcap, hlen, hlo, hhi, -⟩ := hs
  exact ⟨hwf, hinside, hcap, hlen, hlo, hhi, descriptorOk_raise h⟩

/-- The effect of an instruction of the program keeps the invariant. -/
theorem Effect.inv (h : Effect i s t) (hs : s.Inv) (hrun : s.status = .running) {r : Record}
    (hr : s.insnAt s.pc.toInt = some r) : t.Inv := by
  rcases h.raised_or_completed with ⟨kind, info, why, rfl⟩ | ⟨hpc, ⟨hkind, hindex, hinfo⟩, hstatus⟩
  · exact inv_raise hs why.infoFits
  · have hnear := (hpc.pcMoves (inProgramRange_of_insnAt hs hr)).near
    have hrange := insnAt_eq_some hr
    obtain ⟨hwf, hinside, hcap, hlen, -, -, hclean, -⟩ := hs
    obtain ⟨hkind0, hindex0, hinfo0⟩ := hclean (by simp [hrun])
    obtain ⟨hprog, hmemCap, -⟩ := h.sameRun
    have hok : t.status ≠ .faulted := by rcases hstatus with hst | hst <;> simp [hst, hrun]
    refine ⟨h.mem_wf hwf, h.mem_inside hinside, hmemCap ▸ hcap, hprog ▸ hlen, by omega, ?_,
      descriptorOk_of_noFault hok (hkind.trans hkind0) (hindex.trans hindex0) (hinfo.trans hinfo0)⟩
    rw [hprog]
    omega

/-- Settles O13: a fault of the fetch is a fault entry, and an instruction's effect keeps the invariant. -/
theorem stepKeepsTheInvariant : Obligations.StepKeepsTheInvariant := by
  intro s t hs hstep
  obtain ⟨hrun, ⟨-, rfl⟩ | ⟨r, opcode, -, -, rfl⟩ | ⟨r, i, hr, -, -, hexec⟩⟩ := step_cases hstep
  · exact inv_raise hs (infoFits_zero (by decide) (by decide) (by decide) (by decide))
  · exact inv_raise hs (infoFits_unknownOpcode opcode)
  · exact (effect_of_exec hexec).inv hs hrun hr

end Sys2Proof.Machine
end

section
/-! The operand checks of every instruction, said once, and what follows for the register fields it uses (spec 10_state.md R12). -/

namespace Sys2Proof.Machine

/-- The register check an instruction begins with: of the fields it uses, `dst` before `src`, and of no other (R12, R61). -/
inductive OperandCheck (i : Instr) (s : State) : Prop where
  | none (dst : i.dst? = .none) (src : i.src? = .none)
  | dst {f : RegField} (k : RegIdx → Result) (dst : i.dst? = some f) (src : i.src? = .none) (eq : exec i s = s.withReg f k)
  | both {f g : RegField} (k : RegIdx → RegIdx → Result) (dst : i.dst? = some f) (src : i.src? = some g)
      (eq : exec i s = s.withRegs f g k)

theorem exec_operandCheck (i : Instr) (s : State) : OperandCheck i s := by
  cases i with
  | ja _ | call _ | exit => exact .none rfl rfl
  | addReg f g | subReg f g | mulReg f g | divReg f g | modReg f g | orReg f g | andReg f g | xorReg f g | lshReg f g
  | rshReg f g | arshReg f g | movReg f g => exact .both _ rfl rfl rfl
  | ldxw f g _ | ldxh f g _ | ldxb f g _ | ldxdw f g _ => exact .both _ rfl rfl rfl
  | stxw f g _ | stxh f g _ | stxb f g _ | stxdw f g _ => exact .both _ rfl rfl rfl
  | jeqReg f g _ | jneReg f g _ | jsetReg f g _ | jgtReg f g _ | jgeReg f g _ | jltReg f g _ | jleReg f g _ | jsgtReg f g _
  | jsgeReg f g _ | jsltReg f g _ | jsleReg f g _ => exact .both _ rfl rfl rfl
  | _ => exact .dst _ rfl rfl rfl

/-- The fault entry writes status and descriptor and leaves the rest (R186). -/
theorem raise_faultEntered (s : State) (kind : FaultKind) (info : Word) : FaultEntered s (s.raise kind info) kind info :=
  ⟨rfl, rfl, rfl, rfl, rfl, fun _ => rfl, fun _ => rfl, rfl, rfl, rfl⟩

theorem raisesFault_of_exec_eq {i : Instr} {s : State} {kind : FaultKind} {info : Word}
    (h : exec i s = .next (s.raise kind info)) : RaisesFault i s kind info :=
  ⟨_, h, raise_faultEntered s kind info⟩

/-- A used `dst` field that names no register is reported, whatever `src` holds. -/
theorem raisesFault_of_dst {i : Instr} {f : RegField} (s : State) (hf : i.dst? = some f) (high : 10 < f.toNat) :
    RaisesFault i s .invalidRegister (f.setWidth 64) := by
  cases exec_operandCheck i s with
  | none dst => simp [dst] at hf
  | dst k dst _ eq =>
    cases dst.symm.trans hf
    exact raisesFault_of_exec_eq (eq.trans (withReg_invalid s high k))
  | both k dst _ eq =>
    cases dst.symm.trans hf
    exact raisesFault_of_exec_eq (eq.trans (withRegs_invalid_dst s _ high k))

/-- A used `src` field that names no register is reported where `dst` names one. -/
theorem raisesFault_of_src {i : Instr} {g : RegField} (s : State) (hg : i.src? = some g) (high : 10 < g.toNat)
    (hdst : ∀ f, i.dst? = some f → f.toNat ≤ 10) : RaisesFault i s .invalidRegister (g.setWidth 64) := by
  cases exec_operandCheck i s with
  | none _ src => simp [src] at hg
  | dst k _ src => simp [src] at hg
  | both k dst src eq =>
    cases src.symm.trans hg
    exact raisesFault_of_exec_eq (eq.trans (withRegs_invalid_src s (hdst _ dst) high k))

/-- Settles O23: the check of `dst` comes first, that of `src` behind a `dst` that names a register. -/
theorem usedFieldsAreCheckedDstFirst : Obligations.UsedFieldsAreCheckedDstFirst :=
  fun _ s => ⟨fun _ hf high => raisesFault_of_dst s hf high, fun _ hg high hdst => raisesFault_of_src s hg high hdst⟩

end Sys2Proof.Machine
end

section
/-! Two runs that differ in data memory alone: every instruction but the indexed loads takes them to states that differ in data memory
alone (spec 10_state.md R19, 20_memory.md R30). -/

namespace Sys2Proof.Machine

/-- Both answers are next states, equal but for data memory. -/
def AgreeButMem (x y : Result) : Prop := ∃ t u, x = .next t ∧ y = .next u ∧ u.setMem [] = t.setMem []

variable (s : State) (m : Memory)

theorem raise_agreeButMem (kind : FaultKind) (info : Word) :
    AgreeButMem (.next (s.raise kind info)) (.next ((s.setMem m).raise kind info)) := ⟨_, _, rfl, rfl, rfl⟩

theorem finish_agreeButMem (d : RegIdx) (v : Word) : AgreeButMem (s.finish d v) ((s.setMem m).finish d v) :=
  ⟨_, _, rfl, rfl, rfl⟩

theorem withReg_agreeButMem (f : RegField) {k k' : RegIdx → Result} (h : ∀ d, AgreeButMem (k d) (k' d)) :
    AgreeButMem (s.withReg f k) ((s.setMem m).withReg f k') := by
  rcases regIdx?_cases f with ⟨d, hd, -⟩ | ⟨hf, -⟩
  · rw [withReg_eq s hd, withReg_eq (s.setMem m) hd]
    exact h d
  · rw [withReg_invalid s hf, withReg_invalid (s.setMem m) hf]
    exact raise_agreeButMem s m _ _

theorem withRegs_agreeButMem (f g : RegField) {k k' : RegIdx → RegIdx → Result} (h : ∀ d e, AgreeButMem (k d e) (k' d e)) :
    AgreeButMem (s.withRegs f g k) ((s.setMem m).withRegs f g k') :=
  withReg_agreeButMem s m f fun d => withReg_agreeButMem s m g (h d)

theorem divide_agreeButMem (d : RegIdx) (b : Word) (f : Word → Word → Word) :
    AgreeButMem (s.divide d b f) ((s.setMem m).divide d b f) := by
  unfold State.divide
  split
  · exact raise_agreeButMem s m _ _
  · exact finish_agreeButMem s m _ _

theorem branch_agreeButMem (taken : Bool) (offset : Offset) :
    AgreeButMem (s.branch taken offset) ((s.setMem m).branch taken offset) := by
  cases taken <;> exact ⟨_, _, rfl, rfl, rfl⟩

/-- The bounds check of a store does not look at memory's contents, and what it writes it writes to memory alone. -/
theorem store_agreeButMem (b : RegIdx) (offset : Offset) (n : Nat) (v : BitVec (8 * n)) :
    AgreeButMem (s.store b offset n v) ((s.setMem m).store b offset n v) := by
  have hcheck : (s.setMem m).inBounds ((s.setMem m).effectiveAddress b offset) n =
      s.inBounds (s.effectiveAddress b offset) n := rfl
  unfold State.store State.memWrite
  rw [hcheck]
  split
  · exact ⟨_, _, rfl, rfl, rfl⟩
  · exact raise_agreeButMem s m _ _

theorem lddw_agreeButMem (dst : RegField) (lo : Imm) (hi : Option Imm) :
    AgreeButMem (execLddw dst lo hi s) (execLddw dst lo hi (s.setMem m)) := by
  refine withReg_agreeButMem s m dst fun d => ?_
  cases hi with
  | none => exact raise_agreeButMem s m _ _
  | some h => exact ⟨_, _, rfl, rfl, rfl⟩

/-- Every instruction but the indexed loads does the same to all state but memory, whatever memory holds. -/
theorem exec_agreeButMem (i : Instr) (hload : i.isLoad = false) : AgreeButMem (exec i s) (exec i (s.setMem m)) := by
  cases i with
  | ldxw _ _ _ | ldxh _ _ _ | ldxb _ _ _ | ldxdw _ _ _ => cases hload
  | lddw dst lo hi => exact lddw_agreeButMem s m dst lo hi
  | ja _ | call _ | exit => exact ⟨_, _, rfl, rfl, rfl⟩
  | divImm f _ | modImm f _ => exact withReg_agreeButMem s m f fun d => divide_agreeButMem s m d _ _
  | divReg f g | modReg f g => exact withRegs_agreeButMem s m f g fun d e => divide_agreeButMem s m d (s.reg e) _
  | stw f o _ | sth f o _ | stb f o _ | stdw f o _ => exact withReg_agreeButMem s m f fun b => store_agreeButMem s m b o _ _
  | stxw f g o | stxh f g o | stxb f g o | stxdw f g o =>
    exact withRegs_agreeButMem s m f g fun b e => store_agreeButMem s m b o _ ((s.reg e).setWidth _)
  | jeqImm f _ o | jneImm f _ o | jsetImm f _ o | jgtImm f _ o | jgeImm f _ o | jltImm f _ o | jleImm f _ o | jsgtImm f _ o
  | jsgeImm f _ o | jsltImm f _ o | jsleImm f _ o =>
    exact withReg_agreeButMem s m f fun _ => branch_agreeButMem s m _ o
  | jeqReg f g o | jneReg f g o | jsetReg f g o | jgtReg f g o | jgeReg f g o | jltReg f g o | jleReg f g o | jsgtReg f g o
  | jsgeReg f g o | jsltReg f g o | jsleReg f g o =>
    exact withRegs_agreeButMem s m f g fun _ _ => branch_agreeButMem s m _ o
  | addReg f g | subReg f g | mulReg f g | orReg f g | andReg f g | xorReg f g | lshReg f g | rshReg f g | arshReg f g
  | movReg f g => exact withRegs_agreeButMem s m f g fun d _ => finish_agreeButMem s m d _
  | addImm f _ | subImm f _ | mulImm f _ | orImm f _ | andImm f _ | xorImm f _ | lshImm f _ | rshImm f _ | arshImm f _
  | movImm f _ | negImm f | negReg f => exact withReg_agreeButMem s m f fun d => finish_agreeButMem s m d _

/-- A state equal to another but for memory is the other with its memory put in. -/
theorem eq_setMem_of_agree {t u : State} (h : u.setMem [] = t.setMem []) : u = t.setMem u.mem :=
  congrArg (·.setMem u.mem) h

/-- Settles O25: the two runs agree but for memory, and an instruction that is no store carries each one's memory through. -/
theorem onlyLoadsDependOnMemory : Obligations.OnlyLoadsDependOnMemory := by
  intro i s m hload
  obtain ⟨t, u, ht, hu, hagree⟩ := exec_agreeButMem s m i hload
  refine ⟨⟨t, u, ht, hu, hagree⟩, fun hstore => ⟨t, ht, ?_⟩⟩
  have hmem : u.mem = m := (effect_of_exec hu).mem_of_not_store hstore
  rw [hu, eq_setMem_of_agree hagree, hmem]

end Sys2Proof.Machine
end

section
/-! The launch: the launched state of an input of whole slots and of any other, and what both have in common with reset (spec
10_state.md R22 to R25, 60_exceptions.md R181). -/

namespace Sys2Proof.Machine

variable (linkReg : RegIdx) (bytes : List Byte) (memCap : Nat)

/-- The state a launch starts from: reset, with the parameters of the run. -/
def launchBase (linkReg : RegIdx) (memCap : Nat) : State := { State.reset with memCap := memCap, linkReg := linkReg }

/-- An input of whole slots is decoded into the program store (R53). -/
theorem launch_of_whole {bytes : List Byte} (h : bytes.length % 8 = 0) :
    launch linkReg bytes memCap = { launchBase linkReg memCap with prog := slots bytes } := by
  simp [launch, launchBase, h]

/-- Any other input is rejected by MalformedInput (R54, R181). -/
theorem launch_of_partial {bytes : List Byte} (h : bytes.length % 8 ≠ 0) :
    launch linkReg bytes memCap =
      (launchBase linkReg memCap).raiseAt .malformedInput (BitVec.ofNat 64 (bytes.length / 8)) 0#64 := by
  simp [launch, launchBase, h]

/-- Rejected or not, a launch leaves registers, pc and memory as reset has them and takes the two parameters given. -/
theorem launch_common : let s := launch linkReg bytes memCap
    s.regs = State.reset.regs ∧ s.pc = 0#64 ∧ s.mem = [] ∧ s.memCap = memCap ∧ s.linkReg = linkReg := by
  by_cases h : bytes.length % 8 = 0
  · rw [launch_of_whole linkReg memCap h]
    exact ⟨rfl, rfl, rfl, rfl, rfl⟩
  · rw [launch_of_partial linkReg memCap h]
    exact ⟨rfl, rfl, rfl, rfl, rfl⟩

theorem launch_reg (r : RegIdx) : (launch linkReg bytes memCap).reg r = 0#64 := by
  obtain ⟨hregs, -⟩ := launch_common linkReg bytes memCap
  rw [State.reg, hregs]
  exact reset_reg r

theorem launch_pc : (launch linkReg bytes memCap).pc = 0#64 := by
  obtain ⟨-, hpc, -⟩ := launch_common linkReg bytes memCap
  exact hpc

/-- The record the first step fetches is the input's first slot (R23). -/
theorem launch_entry {bytes : List Byte} (h : bytes.length % 8 = 0) :
    (launch linkReg bytes memCap).insnAt (launch linkReg bytes memCap).pc.toInt = (slots bytes).head? := by
  rw [launch_pc, launch_of_whole linkReg memCap h, insnAt_of_nonneg _ (by decide), List.head?_eq_getElem?]
  rfl

/-- Settles O54: registers and pc are those of reset, and the first slot stands at index 0. -/
theorem launchZeroesRegistersAndStartsAtIndexZero : Obligations.LaunchZeroesRegistersAndStartsAtIndexZero := by
  refine ⟨fun linkReg bytes memCap => ⟨launch_reg linkReg bytes memCap, launch_pc linkReg bytes memCap, fun h => ⟨?_, ?_⟩⟩,
    reset_reg, rfl, rfl⟩
  · rw [launch_of_whole linkReg memCap h]
    rfl
  · exact launch_entry linkReg memCap h

/-- Settles O55: memory is the empty list, which reads 0 everywhere, and an accepted input leaves reset's descriptor. -/
theorem launchedMemoryAndDescriptorAreClear : Obligations.LaunchedMemoryAndDescriptorAreClear := by
  intro linkReg bytes memCap
  obtain ⟨-, -, hmem, hcap, hlink⟩ := launch_common linkReg bytes memCap
  refine ⟨fun a => ?_, hcap, hlink, fun h => ?_⟩
  · rw [hmem]
    rfl
  · rw [launch_of_whole linkReg memCap h]
    exact ⟨rfl, rfl, rfl, rfl⟩

end Sys2Proof.Machine
end

section
/-! Data memory through its two primitives: what `MemRead` and `MemWrite` do byte by byte, that R35's wrapped bounds check admits the
same accesses as the exact one, and that a load reads back what a store of its width wrote (spec 20_memory.md R33 to R35, R41). -/

namespace Sys2Proof.Machine

/-- Settles O37: the read answers `readBytes`, whose bytes are those of memory, or the fault entry. -/
theorem memReadJoinsTheBytes : Obligations.MemReadJoinsTheBytes := by
  intro s ea n k _
  rcases memRead_cases s ea n k with ⟨⟨hlo, hhi⟩, hread⟩ | ⟨hout, hread⟩
  · exact ⟨fun hout => by omega, fun _ _ => ⟨_, hread, fun j hj => Memory.byte_readBytes s.mem ea.toNat n j hj⟩⟩
  · exact ⟨fun _ => ⟨_, hread, raise_faultEntered s _ _⟩, fun hlo hhi => by omega⟩

/-- The bytes `writeBytes` writes are those of the value, lowest first (R34). -/
theorem Memory.read_writeBytes_inside (m : Memory) (a n : Nat) {w : Nat} (v : BitVec w) (h : m.wf = true) {j : Nat}
    (hj : j < n) : (m.writeBytes a n v).read (a + j) = v.extractLsb' (8 * j) 8 := by
  rw [Memory.read_writeBytes m a n v _ h, if_pos (by omega), Nat.add_sub_cancel_left]

/-- `writeBytes` leaves every other byte alone (R34). -/
theorem Memory.read_writeBytes_outside (m : Memory) (a n : Nat) {w : Nat} (v : BitVec w) (h : m.wf = true) {x : Nat}
    (hx : x < a ∨ a + n ≤ x) : (m.writeBytes a n v).read x = m.read x := by
  rw [Memory.read_writeBytes m a n v x h, if_neg (by omega)]

/-- Settles O38: the write goes on with `writeBytes` in memory, or the fault entry leaves memory as it was. -/
theorem memWriteStoresTheBytesOrNone : Obligations.MemWriteStoresTheBytesOrNone := by
  intro s ea n v k _ hwf
  rcases memWrite_cases s ea n v k with ⟨⟨hlo, hhi⟩, hwrite⟩ | ⟨hout, hwrite⟩
  · exact ⟨fun hout => by omega, fun _ _ => ⟨_, hwrite, fun j hj => Memory.read_writeBytes_inside s.mem _ n v hwf hj,
      fun a ha => Memory.read_writeBytes_outside s.mem _ n v hwf ha⟩⟩
  · exact ⟨fun _ => ⟨_, hwrite, raise_faultEntered s _ _⟩, fun hlo hhi => by omega⟩

/-- The wrapped sum of a word and a signed offset is the exact one; or the exact sum lies above the signed 64-bit range and the
wrapped one is negative; or the exact sum is negative and the wrapped one above every address the spec allows (D24). -/
theorem toInt_add_offset_cases (a : Word) (o : Offset) :
    (a + o.signExtend 64).toInt = a.toInt + o.toInt ∨
    (2 ^ 63 ≤ a.toInt + o.toInt ∧ (a + o.signExtend 64).toInt < 0) ∨
    (a.toInt + o.toInt < 0 ∧ 2 ^ 62 < (a + o.signExtend 64).toInt) := by
  have hext : (o.signExtend 64).toInt = o.toInt := BitVec.toInt_signExtend_of_le (by decide)
  have hoff := offset_toInt_bounds o
  have hlo : -2 ^ 63 ≤ a.toInt := BitVec.le_toInt a
  have hhi : a.toInt < 2 ^ 63 := BitVec.toInt_lt
  have hwrap : (a + o.signExtend 64).toInt = (a.toInt + o.toInt).bmod (2 ^ 64) := by rw [BitVec.toInt_add, hext]
  by_cases hover : 2 ^ 63 ≤ a.toInt + o.toInt
  · have : (a.toInt + o.toInt).bmod (2 ^ 64) = a.toInt + o.toInt - 2 ^ 64 := by
      rw [← Int.sub_bmod_right]
      exact Int.bmod_eq_of_le (by omega) (by omega)
    exact .inr (.inl ⟨hover, by omega⟩)
  by_cases hunder : a.toInt + o.toInt < -2 ^ 63
  · have : (a.toInt + o.toInt).bmod (2 ^ 64) = a.toInt + o.toInt + 2 ^ 64 := by
      rw [← Int.add_bmod_right]
      exact Int.bmod_eq_of_le (by omega) (by omega)
    exact .inr (.inr ⟨by omega, by omega⟩)
  · exact .inl (by rw [toInt_add_of_fits (by omega) (by omega), hext])

/-- Settles O39: where the sum wraps, both checks reject, the capacity being at most 2^62. -/
theorem wrappedBoundsCheckAgrees : Obligations.WrappedBoundsCheckAgrees := by
  intro s b offset n _ hcap
  rw [inBounds_iff, State.effectiveAddress]
  rcases toInt_add_offset_cases (s.reg b) offset with hexact | ⟨hover, hwrapped⟩ | ⟨hunder, hwrapped⟩
  · rw [hexact]
    omega
  · omega
  · omega

/-- A store-register inside the bounds, then a load of the same width at the same base and offset: the store leaves the base and
MEM_CAP alone, so the load reads the bytes just written and widens the stored value (R41, R121). -/
theorem storeReg_then_load {s : State} {fb fs fd : RegField} {b e d : RegIdx} {offset : Offset} (hwf : s.mem.wf = true)
    (hb : fb.toNat = b.val) (he : fs.toNat = e.val) (hd : fd.toNat = d.val) (hlo : 0 ≤ s.effectiveAddress b offset) (n : Nat)
    (widen : BitVec (8 * n) → Word) (hhi : s.effectiveAddress b offset + n ≤ s.memCap) :
    ∃ t u, (s.withRegs fb fs fun b r => s.store b offset n ((s.reg r).setWidth (8 * n))) = .next t ∧
      t.load fd fb offset n widen = .next u ∧ u.reg d = widen ((s.reg e).setWidth (8 * n)) := by
  rw [withRegs_eq s hb he]
  rcases store_cases s b offset n ((s.reg e).setWidth (8 * n)) with ⟨-, hstore⟩ | ⟨hout, -⟩
  · refine ⟨_, _, hstore, load_eq _ hd hb offset n widen hlo hhi, ?_⟩
    exact (setReg_reg_same _ d _).trans (congrArg widen (Memory.readBytes_writeBytes s.mem _ n _ hwf))
  · omega

/-- Settles O44: for each width, the load's widening applied to the low bytes stored. -/
theorem storeThenLoadReturnsTheValue : Obligations.StoreThenLoadReturnsTheValue := by
  intro s fb fs fd b e d offset hwf hb he hd hlo
  refine ⟨fun hhi => ?w, fun hhi => ?h, fun hhi => ?b, fun hhi => ?dw⟩
  case w => exact storeReg_then_load hwf hb he hd hlo 4 (·.setWidth 64) hhi
  case h => exact storeReg_then_load hwf hb he hd hlo 2 (·.signExtend 64) hhi
  case b => exact storeReg_then_load hwf hb he hd hlo 1 (·.signExtend 64) hhi
  case dw =>
    obtain ⟨t, u, hstore, hload, hreg⟩ := storeReg_then_load hwf hb he hd hlo 8 (·.setWidth 64) hhi
    exact ⟨t, u, hstore, hload, hreg.trans (by simp)⟩

end Sys2Proof.Machine
end

section
/-! The encoding: the layout of a slot's fields in its eight bytes, the program store as the input's slots in order, and the fields of a
decoded instruction (spec 30_encoding.md R51 to R53, R57, R61, R62). -/

namespace Sys2Proof

/-- A byte put below a word is that word's digit of least weight in base 256. -/
theorem toNat_append_byte {w : Nat} (hi : BitVec w) (lo : Byte) : (hi ++ lo).toNat = lo.toNat + 256 * hi.toNat := by
  have hlo : lo.toNat < 2 ^ 8 := lo.isLt
  rw [BitVec.toNat_append, ← Nat.shiftLeft_add_eq_or_of_lt hlo, Nat.shiftLeft_eq]
  omega

/-- Settles O5: the nibbles of byte 1 are its remainder and quotient by 16, and each further byte of a field is its next digit. -/
theorem slotLayoutIsByteForByte : Obligations.SlotLayoutIsByteForByte := by
  intro b0 b1 b2 b3 b4 b5 b6 b7
  have hdst : (b1.extractLsb' 0 4).toNat = b1.toNat % 16 := by simp
  have hsrc : (b1.extractLsb' 4 4).toNat = b1.toNat / 16 := by
    rw [BitVec.extractLsb'_toNat, Nat.shiftRight_eq_div_pow]
    omega
  have himm : (b7 ++ b6 ++ b5 ++ b4).toNat = b4.toNat + 256 * (b5.toNat + 256 * (b6.toNat + 256 * b7.toNat)) := by
    simp only [toNat_append_byte]
  exact ⟨rfl, hdst, hsrc, toNat_append_byte b3 b2, himm⟩

/-- The record of the eight bytes from index `8 * k` on. -/
def slotAt (bytes : List Byte) (k : Nat) : Record :=
  slotOfBytes (bytes.getD (8 * k) 0) (bytes.getD (8 * k + 1) 0) (bytes.getD (8 * k + 2) 0) (bytes.getD (8 * k + 3) 0)
    (bytes.getD (8 * k + 4) 0) (bytes.getD (8 * k + 5) 0) (bytes.getD (8 * k + 6) 0) (bytes.getD (8 * k + 7) 0)

/-- The slots behind the first are those of the input without its first eight bytes. -/
theorem slotAt_drop (bytes : List Byte) (k : Nat) : slotAt (bytes.drop 8) k = slotAt bytes (k + 1) := by
  simp only [slotAt, List.getD_eq_getElem?_getD, List.getElem?_drop, Nat.mul_add, Nat.add_comm 8,
    Nat.add_right_comm _ _ 8, Nat.mul_one]

/-- The decoder takes one slot off an input that holds one. -/
theorem slots_eq_cons {bytes : List Byte} {m : Nat} (h : bytes.length = m + 8) :
    slots bytes = slotAt bytes 0 :: slots (bytes.drop 8) := by
  match bytes, h with
  | _ :: _ :: _ :: _ :: _ :: _ :: _ :: _ :: _, _ => rfl

/-- The decoder's output for `n` whole slots, as the records of the slots 0 to `n - 1` (R53). -/
theorem slots_eq_map_range {n : Nat} {bytes : List Byte} (h : bytes.length = 8 * n) :
    slots bytes = (List.range n).map (slotAt bytes) := by
  induction n generalizing bytes with
  | zero =>
    rw [List.length_eq_zero_iff.mp h]
    rfl
  | succ n ih =>
    have hrest : (bytes.drop 8).length = 8 * n := by rw [List.length_drop, h]; omega
    rw [slots_eq_cons h, ih hrest, List.range_succ_eq_map, List.map_cons, List.map_map]
    congr 1
    exact List.map_congr_left fun k _ => slotAt_drop bytes k

/-- Settles O7: length and entries of the list of the slots' records. -/
theorem programStoreIsTheInputInOrder : Obligations.ProgramStoreIsTheInputInOrder := by
  intro bytes n h
  rw [slots_eq_map_range h]
  refine ⟨by simp, fun k hk => ?_⟩
  rw [List.getElem?_map, List.getElem?_range hk]
  rfl

/-- What an instruction read from the record `r`, with the record `next` behind it, holds: the opcode byte of `r`, in each field it
uses `r`'s field of that name (R57, R61), and, for LDDW alone, the `imm` of the next record (R62). -/
structure ReadFrom (r : Record) (next : Option Record) (i : Instr) : Prop where
  opcode : opcodeOf i = r.opcode
  dst : i.dst? = i.dst?.map fun _ => r.dst
  src : i.src? = i.src?.map fun _ => r.src
  offset : i.offset? = i.offset?.map fun _ => r.offset
  imm : i.imm? = i.imm?.map fun _ => r.imm
  nextImm : i.nextImm? = if opcodeOf i = 0x18#8 then next.map Record.imm else none

/-- Every arm of the opcode map builds, from the record's own fields, an instruction of the byte the arm is selected by (R52, R58). -/
theorem readFrom_of_decode {r : Record} {next : Option Record} {i : Instr} (h : decode r next = .ok i) : ReadFrom r next i := by
  unfold decode at h
  split at h
  case h_65 => cases h -- the arm of the unknown bytes answers an error
  all_goals
    next selected =>
      cases h
      exact ⟨selected.symm, rfl, rfl, rfl, rfl, rfl⟩

/-- Reads one field off `ReadFrom`: where the field is used, it is the record's. -/
theorem eq_of_eq_map_const {α : Type} {field : Option α} {v : α} (h : field = field.map fun _ => v) :
    ∀ x, field = some x → x = v := by
  rintro x rfl
  exact Option.some.inj h

/-- Settles O2: the decoded instruction holds the record's fields, and only LDDW has a second immediate. -/
theorem decodedFieldsAreTheSlotsFields : Obligations.DecodedFieldsAreTheSlotsFields := by
  intro r next i h
  obtain ⟨hop, hdst, hsrc, hoffset, himm, hnext⟩ := readFrom_of_decode h
  refine ⟨hop, eq_of_eq_map_const hdst, eq_of_eq_map_const hsrc, eq_of_eq_map_const hoffset, eq_of_eq_map_const himm,
    fun x hx => ?_⟩
  rw [hx] at hnext
  split at hnext
  · obtain ⟨q, hq, hqx⟩ := Option.map_eq_some_iff.mp hnext.symm
    exact ⟨q, hq, hqx.symm⟩
  · cases hnext

end Sys2Proof
end

section
/-! Which records decode, said once of the opcode map, and which of them decode to EXIT (spec 30_encoding.md R58, R59;
44_call_exit.md R171). -/

namespace Sys2Proof

/-- The opcode map has an arm for each of the 64 bytes and answers every other byte by name (R58, R59). -/
theorem decode_cases (r : Record) (next : Option Record) :
    (r.opcode ∈ knownOpcodes ∧ ∃ i, decode r next = .ok i) ∨
    (r.opcode ∉ knownOpcodes ∧ decode r next = .error (.unknownOpcode r.opcode)) := by
  unfold decode
  split
  case h_65 => -- the arm of the unknown bytes, reached past one inequality for each known byte
    refine .inr ⟨?_, rfl⟩
    simp only [knownOpcodes, List.mem_cons, List.not_mem_nil, or_false, not_or]
    and_intros <;> assumption
  all_goals
    next selected => exact .inl ⟨by rw [selected]; decide, _, rfl⟩

theorem decode_of_known {r : Record} (next : Option Record) (h : r.opcode ∈ knownOpcodes) : ∃ i, decode r next = .ok i := by
  rcases decode_cases r next with ⟨-, hok⟩ | ⟨hunknown, -⟩
  · exact hok
  · exact absurd h hunknown

theorem decode_of_unknown {r : Record} (next : Option Record) (h : r.opcode ∉ knownOpcodes) :
    decode r next = .error (.unknownOpcode r.opcode) := by
  rcases decode_cases r next with ⟨hknown, -⟩ | ⟨-, herr⟩
  · exact absurd hknown h
  · exact herr

theorem decode_of_exit_opcode {r : Record} (next : Option Record) (h : r.opcode = 0x95#8) : decode r next = .ok .exit := by
  unfold decode
  rw [h]
  rfl

/-- A record decodes to EXIT exactly when it has EXIT's opcode byte. -/
theorem eq_exit_iff_of_decode {r : Record} {next : Option Record} {i : Instr} (h : decode r next = .ok i) :
    i = .exit ↔ r.opcode = 0x95#8 := by
  constructor
  · rintro rfl
    exact (readFrom_of_decode h).opcode.symm
  · intro hop
    exact Except.ok.inj (h.symm.trans (decode_of_exit_opcode next hop))

end Sys2Proof
end

section
/-! The execution cycle: the step by what stands at pc, which step ends a run, and what one step can write (spec 40_execution_cycle.md
R70 to R74; 44_call_exit.md R171). -/

namespace Sys2Proof.Machine

variable {i : Instr} {s t : State} {r : Record}

/-- A pc at which no record stands (R71, event (1) of R72). -/
theorem step_of_outside (hrun : s.status = .running) (hr : s.insnAt s.pc.toInt = none) :
    step s = .next (s.raise .programCounterOutOfRange 0#64) := by
  simp [step_of_running hrun, fetch, hr]

/-- A record at pc whose opcode byte is none of the 64 (R71, R172). -/
theorem step_of_unknown (hrun : s.status = .running) (hr : s.insnAt s.pc.toInt = some r) (hop : r.opcode ∉ knownOpcodes) :
    step s = .next (s.raise .unknownOpcode (r.opcode.setWidth 64)) := by
  simp [step_of_running hrun, fetch, hr, decode_of_unknown _ hop]

/-- A record at pc that decodes: the step is the instruction's execution and nothing more (R71). -/
theorem step_of_decode (hrun : s.status = .running) (hr : s.insnAt s.pc.toInt = some r)
    (hi : decode r (s.insnAt (s.pc.toInt + 1)) = .ok i) : step s = exec i s := by
  simp [step_of_running hrun, fetch, hr, hi]

/-- Of the instructions EXIT alone ends a run: the other effects keep the status or set it to FAULTED. -/
theorem terminated_iff_exit_of_exec (hrun : s.status = .running) (h : exec i s = .next t) :
    t.status = .terminated ↔ i = .exit := by
  constructor
  · intro ht
    cases effect_of_exec h with
    | fault why => cases ht
    | reg d v p => cases hrun.symm.trans ht
    | jump p => cases hrun.symm.trans ht
    | store a n v => cases hrun.symm.trans ht
    | exit isExit => exact isExit
  · rintro rfl
    cases h
    rfl

/-- A step ends a run exactly when the record at pc has EXIT's opcode byte; the faults of the fetch do not end it so. -/
theorem terminated_iff_exit_at_pc (h : step s = .next t) :
    t.status = .terminated ↔ ∃ r, s.insnAt s.pc.toInt = some r ∧ r.opcode = 0x95#8 := by
  obtain ⟨hrun, ⟨hnone, rfl⟩ | ⟨r, opcode, hr, hd, rfl⟩ | ⟨r, i, hr, hd, -, hexec⟩⟩ := step_cases h
  · simp [hnone]
  · have hop : r.opcode ≠ 0x95#8 := fun hop => by cases hd.symm.trans (decode_of_exit_opcode _ hop)
    simp [hr, hop]
  · rw [terminated_iff_exit_of_exec hrun hexec, eq_exit_iff_of_decode hd]
    simp [hr]

/-- The step that ends a run writes the status alone (R171, D21). -/
theorem eq_terminate_of_step (h : step s = .next t) (ht : t.status = .terminated) : t = s.terminate := by
  obtain ⟨hrun, ⟨-, rfl⟩ | ⟨r, opcode, -, -, rfl⟩ | ⟨r, i, -, -, -, hexec⟩⟩ := step_cases h
  · cases ht
  · cases ht
  · obtain rfl := (terminated_iff_exit_of_exec hrun hexec).mp ht
    cases hexec
    rfl

/-- Settles O20: EXIT's byte at pc is what ends a run, and the state it leaves differs in the status alone. -/
theorem onlyExitTerminates : Obligations.OnlyExitTerminates := by
  intro s t _ hstep
  refine ⟨terminated_iff_exit_at_pc hstep, fun ht => ?_⟩
  rw [eq_terminate_of_step hstep ht]
  exact ⟨fun _ => rfl, fun _ => rfl, rfl, ⟨rfl, rfl, rfl⟩, rfl, rfl, rfl⟩

/-- An instruction writes no register, or one register and no memory. -/
theorem Effect.sameRegs_or_writes_one (h : Effect i s t) :
    SameRegs s t ∨ ∃ d, (∀ r, r ≠ d → t.reg r = s.reg r) ∧ SameMem s t := by
  cases h with
  | fault why => exact .inl fun _ => rfl
  | reg d v p => exact .inr ⟨d, fun r hr => setReg_reg_ne s v hr, fun _ => rfl⟩
  | jump p => exact .inl fun _ => rfl
  | store a n v => exact .inl fun _ => rfl
  | exit isExit => exact .inl fun _ => rfl

/-- So does a step, the faults of the fetch writing no register. -/
theorem step_sameRegs_or_writes_one (h : step s = .next t) :
    SameRegs s t ∨ ∃ d, (∀ r, r ≠ d → t.reg r = s.reg r) ∧ SameMem s t := by
  obtain ⟨-, ⟨-, rfl⟩ | ⟨r, opcode, -, -, rfl⟩ | ⟨r, i, -, -, -, hexec⟩⟩ := step_cases h
  · exact .inl fun _ => rfl
  · exact .inl fun _ => rfl
  · exact (effect_of_exec hexec).sameRegs_or_writes_one

/-- Settles O22: with no register written any register may be named, with one written memory is carried through. -/
theorem atMostOneWritePerStep : Obligations.AtMostOneWritePerStep := by
  intro s t hstep
  rcases step_sameRegs_or_writes_one hstep with hsame | ⟨d, hothers, hmem⟩
  · exact ⟨⟨0, fun r _ => hsame r⟩, fun ⟨r, hchanged⟩ => absurd (hsame r) hchanged⟩
  · exact ⟨⟨d, hothers⟩, fun _ => hmem⟩

/-- Settles O9: the step's three answers, by the range of pc and the opcode byte of the record found there. -/
theorem stepFetchesDispatchesAndExecutes : Obligations.StepFetchesDispatchesAndExecutes := by
  intro s hrun
  refine ⟨fun hout => ?_, fun hlo hhi => ?_⟩
  · have hnone := (insnAt_eq_none_iff s s.pc.toInt).mpr hout
    exact ⟨_, step_of_outside hrun hnone, raise_faultEntered s _ _⟩
  · obtain ⟨r, hr⟩ : ∃ r, s.insnAt s.pc.toInt = some r :=
      Option.ne_none_iff_exists'.mp fun hnone => by
        have := (insnAt_eq_none_iff s s.pc.toInt).mp hnone
        omega
    have hnext : s.insnAt (s.pc.toInt + 1) = s.prog[s.pc.toInt.toNat + 1]? := by
      rw [insnAt_of_nonneg s (by omega), Int.toNat_add hlo (by decide), Int.toNat_one]
    refine ⟨r, (insnAt_of_nonneg s hlo).symm.trans hr, fun hunknown => ?_, fun hknown => ?_⟩
    · exact ⟨_, step_of_unknown hrun hr hunknown, raise_faultEntered s _ _⟩
    · obtain ⟨i, hi⟩ := decode_of_known (s.insnAt (s.pc.toInt + 1)) hknown
      exact ⟨i, hnext ▸ hi, (readFrom_of_decode hi).opcode, step_of_decode hrun hr hi⟩

/-- Settles O16: the induction over a run, each step keeping the invariant. -/
theorem runsKeepTheInvariant : Obligations.RunsKeepTheInvariant :=
  runSteps_keeps stepKeepsTheInvariant

/-- Settles O8: the step of a record that decodes. -/
theorem stepRunsTheDecodedInstruction : Obligations.StepRunsTheDecodedInstruction :=
  fun _ _ _ hrun hr hi => step_of_decode hrun hr hi

/-- Settles O12: no step outside RUNNING, hence no run that moves. -/
theorem endedRunDoesNotChange : Obligations.EndedRunDoesNotChange :=
  fun _ hended => ⟨step_of_not_running hended, runSteps_of_not_running hended⟩

end Sys2Proof.Machine
end

section
/-! The ALU rules: what the shared skeletons of R86 give an instruction whose byte the opcode map knows, then what each operation's
result is as arithmetic (spec 41_alu.md). -/

namespace Sys2Proof.Machine

variable {i : Instr} {s : State} {op : Byte} {res : Word → Word → Word → Prop}

/-- A non-zero divisor passes the check (R86). -/
theorem divide_of_ne_zero (s : State) (d : RegIdx) {b : Word} (f : Word → Word → Word) (h : b ≠ 0#64) :
    s.divide d b f = s.finish d (f (s.reg d) b) := by
  rcases divide_cases s d b f with ⟨-, hdiv⟩ | ⟨hzero, -⟩
  · exact hdiv
  · exact absurd hzero h

theorem divide_zero (s : State) (d : RegIdx) (f : Word → Word → Word) :
    s.divide d 0#64 f = .next (s.raise .divisionByZero 0#64) := by
  rcases divide_cases s d 0#64 f with ⟨hne, -⟩ | ⟨-, hdiv⟩
  · exact absurd rfl hne
  · exact hdiv

/-- The register form of DIV and MOD on two registers with a non-zero divisor. -/
theorem divideRegs_eq {dst src : RegField} {d e : RegIdx} (hd : dst.toNat = d.val) (he : src.toNat = e.val)
    (hb : s.reg e ≠ 0#64) (f : Word → Word → Word) :
    (s.withRegs dst src fun d r => s.divide d (s.reg r) f) = s.finish d (f (s.reg d) (s.reg e)) :=
  (withRegs_eq s hd he _).trans (divide_of_ne_zero s d f hb)

/-- An instruction that ends in `x[d] <- v; pc <- pc + 1` writes that register and leaves the rest (R86). -/
theorem writesRegister_of_exec_eq {d : RegIdx} {v : Word} (h : exec i s = s.finish d v) :
    WritesRegister i s d v (s.pc + 1#64) :=
  ⟨_, h, setReg_reg_same s d v, rfl, fun _ hr => setReg_reg_ne s v hr, rfl, ⟨rfl, rfl, rfl⟩, fun _ => rfl, rfl, rfl, rfl⟩

/-- The rule of an instruction over the immediate skeleton is what its function gives on two words. -/
theorem aluImmRule_of_skeleton {mk : RegField → Imm → Instr} (f : Word → Word → Word)
    (hdecode : ∀ dst src offset imm next, decode ⟨op, dst, src, offset, imm⟩ next = .ok (mk dst imm))
    (hexec : ∀ dst imm s, exec (mk dst imm) s = s.aluImm dst imm f) (hres : ∀ a b, res a b (f a b)) :
    AluImmRule op mk res := by
  refine ⟨?decodes, fun s dst imm => ⟨fun d hd => ?completes, fun high => ?badDst⟩⟩
  case decodes => rintro ⟨⟩ next rfl; exact hdecode _ _ _ _ _
  case completes =>
    exact ⟨_, writesRegister_of_exec_eq ((hexec dst imm s).trans (withReg_eq s hd _)), hres _ _⟩
  case badDst => exact raisesFault_of_exec_eq ((hexec dst imm s).trans (withReg_invalid s high _))

/-- The rule of an instruction over the register skeleton is what its function gives on two words. -/
theorem aluRegRule_of_skeleton {mk : RegField → RegField → Instr} (f : Word → Word → Word)
    (hdecode : ∀ dst src offset imm next, decode ⟨op, dst, src, offset, imm⟩ next = .ok (mk dst src))
    (hexec : ∀ dst src s, exec (mk dst src) s = s.aluReg dst src f) (hres : ∀ a b, res a b (f a b)) :
    AluRegRule op mk res := by
  refine ⟨?decodes, fun s dst src => ⟨fun d e hd he => ?completes, fun high => ?badDst, fun hdst high => ?badSrc⟩⟩
  case decodes => rintro ⟨⟩ next rfl; exact hdecode _ _ _ _ _
  case completes =>
    exact ⟨_, writesRegister_of_exec_eq ((hexec dst src s).trans (withRegs_eq s hd he _)), hres _ _⟩
  case badDst => exact raisesFault_of_exec_eq ((hexec dst src s).trans (withRegs_invalid_dst s src high _))
  case badSrc => exact raisesFault_of_exec_eq ((hexec dst src s).trans (withRegs_invalid_src s hdst high _))

/-- The rule of an instruction over the unary skeleton is what its function gives on one word. -/
theorem aluUnaryRule_of_skeleton {mk : RegField → Instr} (f : Word → Word) {res : Word → Word → Prop}
    (hdecode : ∀ dst src offset imm next, decode ⟨op, dst, src, offset, imm⟩ next = .ok (mk dst))
    (hexec : ∀ dst s, exec (mk dst) s = s.aluUnary dst f) (hres : ∀ a, res a (f a)) : AluUnaryRule op mk res := by
  refine ⟨?decodes, fun s dst => ⟨fun d hd => ?completes, fun high => ?badDst⟩⟩
  case decodes => rintro ⟨⟩ next rfl; exact hdecode _ _ _ _ _
  case completes => exact ⟨_, writesRegister_of_exec_eq ((hexec dst s).trans (withReg_eq s hd _)), hres _⟩
  case badDst => exact raisesFault_of_exec_eq ((hexec dst s).trans (withReg_invalid s high _))

/-- Sign extension keeps the signed value (R55). -/
theorem immOperand_toInt (imm : Imm) : (immOperand imm).toInt = imm.toInt :=
  BitVec.toInt_signExtend_of_le (by decide)

/-- The operand of an immediate is zero only where the immediate is. -/
theorem immOperand_ne_zero {imm : Imm} (h : imm ≠ 0#32) : immOperand imm ≠ 0#64 := by
  rw [← BitVec.toInt_ne, immOperand_toInt]
  exact BitVec.toInt_ne.mpr h

/-- The rule of DIV or MOD by an immediate: the value is claimed for a non-zero divisor only. -/
theorem divideImmRule_of_skeleton {mk : RegField → Imm → Instr} (f : Word → Word → Word)
    (hdecode : ∀ dst src offset imm next, decode ⟨op, dst, src, offset, imm⟩ next = .ok (mk dst imm))
    (hexec : ∀ dst imm s, exec (mk dst imm) s = s.withReg dst fun d => s.divide d (immOperand imm) f)
    (hres : ∀ a b, res a b (f a b)) : DivideImmRule op mk res := by
  refine ⟨?decodes, fun s dst imm => ⟨fun d hd himm => ?completes, fun hdst himm => ?zero, fun high => ?badDst⟩⟩
  case decodes => rintro ⟨⟩ next rfl; exact hdecode _ _ _ _ _
  case completes =>
    have hdiv := divide_of_ne_zero s d f (immOperand_ne_zero himm)
    exact ⟨_, writesRegister_of_exec_eq ((hexec dst imm s).trans ((withReg_eq s hd _).trans hdiv)), hres _ _⟩
  case zero =>
    obtain ⟨d, hd⟩ := exists_regIdx hdst
    subst himm
    exact raisesFault_of_exec_eq ((hexec dst _ s).trans ((withReg_eq s hd _).trans (divide_zero s d f)))
  case badDst => exact raisesFault_of_exec_eq ((hexec dst imm s).trans (withReg_invalid s high _))

/-- The rule of DIV or MOD by a register: the value is claimed for a non-zero divisor only. -/
theorem divideRegRule_of_skeleton {mk : RegField → RegField → Instr} (f : Word → Word → Word)
    (hdecode : ∀ dst src offset imm next, decode ⟨op, dst, src, offset, imm⟩ next = .ok (mk dst src))
    (hexec : ∀ dst src s, exec (mk dst src) s = s.withRegs dst src fun d r => s.divide d (s.reg r) f)
    (hres : ∀ a b, res a b (f a b)) : DivideRegRule op mk res := by
  refine ⟨?decodes, fun s dst src => ⟨fun d e hd he hb => ?completes, fun e hdst he hb => ?zero, fun high => ?badDst,
    fun hdst high => ?badSrc⟩⟩
  case decodes => rintro ⟨⟩ next rfl; exact hdecode _ _ _ _ _
  case completes =>
    exact ⟨_, writesRegister_of_exec_eq ((hexec dst src s).trans (divideRegs_eq hd he hb f)), hres _ _⟩
  case zero =>
    obtain ⟨d, hd⟩ := exists_regIdx hdst
    have hdiv : s.divide d (s.reg e) f = .next (s.raise .divisionByZero 0#64) := by rw [hb, divide_zero]
    exact raisesFault_of_exec_eq ((hexec dst src s).trans ((withRegs_eq s hd he _).trans hdiv))
  case badDst => exact raisesFault_of_exec_eq ((hexec dst src s).trans (withRegs_invalid_dst s src high _))
  case badSrc => exact raisesFault_of_exec_eq ((hexec dst src s).trans (withRegs_invalid_src s hdst high _))

/-- `BitVec.ofInt 64` is `trunc_64` (R6): the value of the sums, differences, products, quotients, remainders and negations. -/
theorem isTrunc_ofInt (k : Int) : IsTrunc (BitVec.ofInt 64 k) k := by
  rw [IsTrunc, BitVec.toNat_ofInt]
  exact Int.toNat_of_nonneg (Int.emod_nonneg k (by decide))

/-- Settles O28: both operations end in `trunc_64` of the exact result. -/
theorem addAndSubtractWrapTheExactResult : Obligations.AddAndSubtractWrapTheExactResult :=
  ⟨aluImmRule_of_skeleton aluAdd (fun _ _ _ _ _ => rfl) (fun _ _ _ => rfl) fun _ _ => isTrunc_ofInt _,
   aluRegRule_of_skeleton aluAdd (fun _ _ _ _ _ => rfl) (fun _ _ _ => rfl) fun _ _ => isTrunc_ofInt _,
   aluImmRule_of_skeleton aluSub (fun _ _ _ _ _ => rfl) (fun _ _ _ => rfl) fun _ _ => isTrunc_ofInt _,
   aluRegRule_of_skeleton aluSub (fun _ _ _ _ _ => rfl) (fun _ _ _ => rfl) fun _ _ => isTrunc_ofInt _⟩

/-- Settles O29: the product ends in `trunc_64`. -/
theorem multiplyWrapsTheExactProduct : Obligations.MultiplyWrapsTheExactProduct :=
  ⟨aluImmRule_of_skeleton aluMul (fun _ _ _ _ _ => rfl) (fun _ _ _ => rfl) fun _ _ => isTrunc_ofInt _,
   aluRegRule_of_skeleton aluMul (fun _ _ _ _ _ => rfl) (fun _ _ _ => rfl) fun _ _ => isTrunc_ofInt _⟩

/-- Settles O30: quotient and remainder end in `trunc_64` behind the divisor check. -/
theorem divideAndModuloTruncateOrFault : Obligations.DivideAndModuloTruncateOrFault :=
  ⟨divideImmRule_of_skeleton aluDiv (fun _ _ _ _ _ => rfl) (fun _ _ _ => rfl) fun _ _ => isTrunc_ofInt _,
   divideRegRule_of_skeleton aluDiv (fun _ _ _ _ _ => rfl) (fun _ _ _ => rfl) fun _ _ => isTrunc_ofInt _,
   divideImmRule_of_skeleton aluMod (fun _ _ _ _ _ => rfl) (fun _ _ _ => rfl) fun _ _ => isTrunc_ofInt _,
   divideRegRule_of_skeleton aluMod (fun _ _ _ _ _ => rfl) (fun _ _ _ => rfl) fun _ _ => isTrunc_ofInt _⟩

/-- The remainder needs no truncation: it is no larger than the dividend. -/
theorem aluMod_toInt (a b : Word) : (aluMod a b).toInt = a.toInt.tmod b.toInt := by
  rw [aluMod, ← BitVec.toInt_srem, BitVec.ofInt_toInt]

/-- The exact law `b * (a div b) + (a rem b) = a`, carried through `trunc_64` (R114). -/
theorem mul_aluDiv_add_aluMod (a b : Word) : b * aluDiv a b + aluMod a b = a := by
  calc b * aluDiv a b + aluMod a b
      = BitVec.ofInt 64 (b.toInt * a.toInt.tdiv b.toInt + a.toInt.tmod b.toInt) := by
        rw [BitVec.ofInt_add, BitVec.ofInt_mul, BitVec.ofInt_toInt, aluDiv, aluMod]
    _ = a := by rw [Int.mul_tdiv_add_tmod, BitVec.ofInt_toInt]

theorem natAbs_aluMod_lt {a b : Word} (hb : b ≠ 0#64) : (aluMod a b).toInt.natAbs < b.toInt.natAbs := by
  have hb' : b.toInt ≠ 0 := BitVec.toInt_ne.mpr hb
  rw [aluMod_toInt, Int.natAbs_tmod]
  exact Nat.mod_lt _ (Int.natAbs_pos.mpr hb')

theorem aluMod_nonneg {a : Word} (b : Word) (ha : 0 ≤ a.toInt) : 0 ≤ (aluMod a b).toInt := by
  rw [aluMod_toInt]
  exact Int.tmod_nonneg _ ha

theorem aluMod_nonpos {a : Word} (b : Word) (ha : a.toInt ≤ 0) : (aluMod a b).toInt ≤ 0 := by
  have hneg : 0 ≤ (-a.toInt).tmod b.toInt := Int.tmod_nonneg _ (by omega)
  rw [Int.neg_tmod] at hneg
  rw [aluMod_toInt]
  omega

/-- Settles O31: DIV and MOD write `aluDiv` and `aluMod`, which recombine as words. -/
theorem quotientAndRemainderRecombine : Obligations.QuotientAndRemainderRecombine := by
  intro s dst src d e hd he hb
  refine ⟨_, _, divideRegs_eq hd he hb aluDiv, divideRegs_eq hd he hb aluMod, ?_⟩
  simp only [advance_reg, setReg_reg_same]
  refine ⟨(mul_aluDiv_add_aluMod _ _).symm, natAbs_aluMod_lt hb, aluMod_nonneg _, aluMod_nonpos _, fun hmin hone => ?_⟩
  rw [hmin, hone]
  decide

/-- Settles O32: the model's operations on words are those on their bits. -/
theorem orAndXorAreBitwise : Obligations.OrAndXorAreBitwise :=
  ⟨aluImmRule_of_skeleton aluOr (fun _ _ _ _ _ => rfl) (fun _ _ _ => rfl) fun _ _ _ => BitVec.getLsbD_or,
   aluRegRule_of_skeleton aluOr (fun _ _ _ _ _ => rfl) (fun _ _ _ => rfl) fun _ _ _ => BitVec.getLsbD_or,
   aluImmRule_of_skeleton aluAnd (fun _ _ _ _ _ => rfl) (fun _ _ _ => rfl) fun _ _ _ => BitVec.getLsbD_and,
   aluRegRule_of_skeleton aluAnd (fun _ _ _ _ _ => rfl) (fun _ _ _ => rfl) fun _ _ _ => BitVec.getLsbD_and,
   aluImmRule_of_skeleton aluXor (fun _ _ _ _ _ => rfl) (fun _ _ _ => rfl) fun _ _ _ => BitVec.getLsbD_xor,
   aluRegRule_of_skeleton aluXor (fun _ _ _ _ _ => rfl) (fun _ _ _ => rfl) fun _ _ _ => BitVec.getLsbD_xor⟩

/-- The case of R87 for counts above 63 is what the shift of the library gives there. -/
theorem aluLsh_eq_shiftLeft (a b : Word) : aluLsh a b = a <<< b.toNat := by
  unfold aluLsh
  split
  · rfl
  · exact (BitVec.shiftLeft_eq_zero (by omega)).symm

theorem aluRsh_eq_ushiftRight (a b : Word) : aluRsh a b = a >>> b.toNat := by
  unfold aluRsh
  split
  · rfl
  · exact (BitVec.ushiftRight_eq_zero (by omega)).symm

/-- From a count of 64 on every bit of an arithmetic shift is the sign bit. -/
theorem sshiftRight_of_ge {a : Word} {k : Nat} (h : 64 ≤ k) :
    a.sshiftRight k = if a.msb then BitVec.allOnes 64 else 0#64 := by
  refine BitVec.eq_of_getLsbD_eq fun j hj => ?_
  have hbit : (a.sshiftRight k).getLsbD j = a.msb := by
    rw [BitVec.getLsbD_sshiftRight, if_neg (by omega)]
    simp [hj]
  rw [hbit]
  split
  next hneg => rw [hneg, BitVec.getLsbD_allOnes, decide_eq_true hj]
  next hpos => rw [eq_false_of_ne_true hpos, BitVec.getLsbD_zero]

theorem aluArsh_eq_sshiftRight (a b : Word) : aluArsh a b = a.sshiftRight b.toNat := by
  unfold aluArsh
  split
  · rfl
  · exact (sshiftRight_of_ge (by omega)).symm

theorem aluLsh_toNat (a b : Word) : (aluLsh a b).toNat = a.toNat * 2 ^ b.toNat % 2 ^ 64 := by
  rw [aluLsh_eq_shiftLeft, BitVec.toNat_shiftLeft, Nat.shiftLeft_eq]

theorem aluRsh_toNat (a b : Word) : (aluRsh a b).toNat = a.toNat / 2 ^ b.toNat := by
  rw [aluRsh_eq_ushiftRight, BitVec.toNat_ushiftRight, Nat.shiftRight_eq_div_pow]

/-- Integer division by a power of two rounds down, as the arithmetic shift does (R87). -/
theorem aluArsh_toInt (a b : Word) : (aluArsh a b).toInt = a.toInt / 2 ^ b.toNat := by
  have hpow : ((2 ^ b.toNat : Nat) : Int) = 2 ^ b.toNat := Int.natCast_pow 2 b.toNat
  rw [aluArsh_eq_sshiftRight, BitVec.toInt_sshiftRight, Int.shiftRight_eq_div_pow, hpow]

/-- Settles O33: the two logical shifts as arithmetic of natural numbers, for every count. -/
theorem logicalShiftsMultiplyAndDivide : Obligations.LogicalShiftsMultiplyAndDivide :=
  ⟨aluImmRule_of_skeleton aluLsh (fun _ _ _ _ _ => rfl) (fun _ _ _ => rfl) aluLsh_toNat,
   aluRegRule_of_skeleton aluLsh (fun _ _ _ _ _ => rfl) (fun _ _ _ => rfl) aluLsh_toNat,
   aluImmRule_of_skeleton aluRsh (fun _ _ _ _ _ => rfl) (fun _ _ _ => rfl) aluRsh_toNat,
   aluRegRule_of_skeleton aluRsh (fun _ _ _ _ _ => rfl) (fun _ _ _ => rfl) aluRsh_toNat⟩

/-- Settles O34: the arithmetic shift as division of the signed value, for every count. -/
theorem arithmeticShiftFloors : Obligations.ArithmeticShiftFloors :=
  ⟨aluImmRule_of_skeleton aluArsh (fun _ _ _ _ _ => rfl) (fun _ _ _ => rfl) aluArsh_toInt,
   aluRegRule_of_skeleton aluArsh (fun _ _ _ _ _ => rfl) (fun _ _ _ => rfl) aluArsh_toInt⟩

/-- Settles O35: both bytes run the unary skeleton, which reads `dst` alone. -/
theorem negateIgnoresEverythingButDst : Obligations.NegateIgnoresEverythingButDst :=
  ⟨aluUnaryRule_of_skeleton aluNeg (fun _ _ _ _ _ => rfl) (fun _ _ => rfl) fun _ => isTrunc_ofInt _,
   aluUnaryRule_of_skeleton aluNeg (fun _ _ _ _ _ => rfl) (fun _ _ => rfl) fun _ => isTrunc_ofInt _⟩

/-- Settles O36: MOV writes its second operand, and the immediate's extension keeps its signed value. -/
theorem moveCopiesTheOperand : Obligations.MoveCopiesTheOperand :=
  ⟨aluImmRule_of_skeleton aluMov (fun _ _ _ _ _ => rfl) (fun _ _ _ => rfl) fun _ _ => rfl,
   aluRegRule_of_skeleton aluMov (fun _ _ _ _ _ => rfl) (fun _ _ _ => rfl) fun _ _ => rfl,
   immOperand_toInt⟩

end Sys2Proof.Machine
end

section
/-! The load and store rules: what the shared skeletons of R120 and R121 give an instruction whose byte the opcode map knows, then the
two-slot load (spec 42_load_store.md). -/

namespace Sys2Proof.Machine

variable {i : Instr} {s : State} {op : Byte} {n : Nat}

/-- A value that keeps the bits of the `n` bytes loaded has memory's bytes as its low bytes, lowest first (R33, R121). -/
theorem byte_of_widened_readBytes {m : Memory} {a k : Nat} {v : Word} (hlow : v.setWidth (8 * n) = m.readBytes a n)
    (hk : k < n) : v.extractLsb' (8 * k) 8 = m.read (a + k) := by
  rw [← BitVec.extractLsb'_setWidth_of_le (w' := 8 * n) (by omega), hlow, Memory.byte_readBytes m a n k hk]

/-- The rule of an instruction over the load skeleton: its widening keeps the bytes read, and `ext` is what it adds above them. -/
theorem loadRule_of_skeleton {mk : RegField → RegField → Offset → Instr} {ext : Word → Prop} (widen : BitVec (8 * n) → Word)
    (hdecode : ∀ dst src offset imm next, decode ⟨op, dst, src, offset, imm⟩ next = .ok (mk dst src offset))
    (hexec : ∀ dst src offset s, exec (mk dst src offset) s = s.load dst src offset n widen)
    (hlow : ∀ v, (widen v).setWidth (8 * n) = v) (hext : ∀ v, ext (widen v)) : LoadRule op mk n ext := by
  refine ⟨?decodes, fun s dst src offset => ⟨fun d b hd hb hlo hhi => ?completes, fun b hdst hb hout => ?outside,
    fun high => ?badDst, fun hdst high => ?badSrc⟩⟩
  case decodes => rintro ⟨⟩ next rfl; exact hdecode _ _ _ _ _
  case completes =>
    have heq := (hexec dst src offset s).trans (load_eq s hd hb offset n widen hlo hhi)
    exact ⟨_, writesRegister_of_exec_eq heq, hext _, fun k hk => byte_of_widened_readBytes (hlow _) hk⟩
  case outside =>
    exact raisesFault_of_exec_eq ((hexec dst src offset s).trans (load_outside s hdst hb offset n widen hout))
  case badDst => exact raisesFault_of_exec_eq ((hexec dst src offset s).trans (withRegs_invalid_dst s src high _))
  case badSrc => exact raisesFault_of_exec_eq ((hexec dst src offset s).trans (withRegs_invalid_src s hdst high _))

/-- Sign extension to 64 bits keeps the bits it extends. -/
theorem setWidth_signExtend_word {w : Nat} (hw : w ≤ 64) (v : BitVec w) : (v.signExtend 64).setWidth w = v := by
  refine BitVec.eq_of_getLsbD_eq fun j hj => ?_
  have h64 : j < 64 := by omega
  simp [BitVec.getElem_signExtend, hj, h64]

/-- A sign-extended value lies in the signed range of its own width. -/
theorem toInt_signExtend_bounds {w : Nat} (hw : w ≤ 64) (v : BitVec w) :
    -2 ^ (w - 1) ≤ (v.signExtend 64).toInt ∧ (v.signExtend 64).toInt < 2 ^ (w - 1) := by
  rw [BitVec.toInt_signExtend_of_le hw]
  exact ⟨BitVec.le_toInt v, BitVec.toInt_lt⟩

/-- Settles O41: each load is the skeleton at its width with its widening. -/
theorem loadsReadAndWidenTheBytes : Obligations.LoadsReadAndWidenTheBytes := by
  refine ⟨?w, ?h, ?b, ?dw⟩
  case w =>
    refine loadRule_of_skeleton (·.setWidth 64) (fun _ _ _ _ _ => rfl) (fun _ _ _ _ => rfl) ?_ ?_
    · exact fun v => (BitVec.setWidth_setWidth_of_le v (by decide)).trans v.setWidth_eq
    · exact fun v => Nat.lt_of_le_of_lt (Nat.le_of_eq (BitVec.toNat_setWidth_of_le (by decide))) v.isLt
  case h =>
    exact loadRule_of_skeleton (·.signExtend 64) (fun _ _ _ _ _ => rfl) (fun _ _ _ _ => rfl)
      (setWidth_signExtend_word (by decide)) (toInt_signExtend_bounds (by decide))
  case b =>
    exact loadRule_of_skeleton (·.signExtend 64) (fun _ _ _ _ _ => rfl) (fun _ _ _ _ => rfl)
      (setWidth_signExtend_word (by decide)) (toInt_signExtend_bounds (by decide))
  case dw =>
    exact loadRule_of_skeleton (·.setWidth 64) (fun _ _ _ _ _ => rfl) (fun _ _ _ _ => rfl)
      (fun v => (congrArg _ v.setWidth_eq).trans v.setWidth_eq) fun _ => trivial

/-- An instruction that ends in a store inside the bounds writes the low `n` bytes of `v` there and no other byte (R34, R121). -/
theorem storesBytes_of_exec_eq {b : RegIdx} {offset : Offset} {v : Word} (hwf : s.mem.wf = true)
    (h : exec i s = s.store b offset n (v.setWidth (8 * n))) (hlo : 0 ≤ s.effectiveAddress b offset)
    (hhi : s.effectiveAddress b offset + n ≤ s.memCap) : StoresBytes i s (s.effectiveAddress b offset).toNat n v := by
  rcases store_cases s b offset n (v.setWidth (8 * n)) with ⟨-, hstore⟩ | ⟨hout, -⟩
  · refine ⟨_, h.trans hstore, fun k hk => ?written, fun a ha => ?kept, rfl, fun _ => rfl, rfl, ⟨rfl, rfl, rfl⟩, rfl, rfl, rfl⟩
    case written => exact (Memory.read_writeBytes_inside s.mem _ n _ hwf hk).trans (BitVec.extractLsb'_setWidth_of_le (by omega))
    case kept => exact Memory.read_writeBytes_outside s.mem _ n _ hwf ha
  · omega

/-- An instruction that ends in a store outside the bounds faults with no byte written (R34, R35). -/
theorem raisesFault_of_store_outside {b : RegIdx} {offset : Offset} {v : BitVec (8 * n)}
    (h : exec i s = s.store b offset n v)
    (hout : s.effectiveAddress b offset < 0 ∨ (s.memCap : Int) < s.effectiveAddress b offset + n) :
    RaisesFault i s .memoryAccessOutOfBounds 0#64 := by
  rcases store_cases s b offset n v with ⟨hin, -⟩ | ⟨-, hstore⟩
  · omega
  · exact raisesFault_of_exec_eq (h.trans hstore)

/-- The rule of an instruction that checks `dst` and stores the low bytes of its immediate. -/
theorem storeImmRule_of_skeleton {mk : RegField → Offset → Imm → Instr}
    (hdecode : ∀ dst src offset imm next, decode ⟨op, dst, src, offset, imm⟩ next = .ok (mk dst offset imm))
    (hexec : ∀ dst offset imm s, exec (mk dst offset imm) s =
      s.withReg dst fun b => s.store b offset n ((immOperand imm).setWidth (8 * n))) : StoreImmRule op mk n := by
  refine ⟨?decodes, fun s dst offset imm => ⟨fun b hwf hb hlo hhi => ?completes, fun b hb hout => ?outside, fun high => ?badDst⟩⟩
  case decodes => rintro ⟨⟩ next rfl; exact hdecode _ _ _ _ _
  case completes => exact storesBytes_of_exec_eq hwf ((hexec dst offset imm s).trans (withReg_eq s hb _)) hlo hhi
  case outside => exact raisesFault_of_store_outside ((hexec dst offset imm s).trans (withReg_eq s hb _)) hout
  case badDst => exact raisesFault_of_exec_eq ((hexec dst offset imm s).trans (withReg_invalid s high _))

/-- The rule of an instruction that checks both fields and stores the low bytes of `x[src]`; `src` may be the base itself. -/
theorem storeRegRule_of_skeleton {mk : RegField → RegField → Offset → Instr}
    (hdecode : ∀ dst src offset imm next, decode ⟨op, dst, src, offset, imm⟩ next = .ok (mk dst src offset))
    (hexec : ∀ dst src offset s, exec (mk dst src offset) s =
      s.withRegs dst src fun b r => s.store b offset n ((s.reg r).setWidth (8 * n))) : StoreRegRule op mk n := by
  refine ⟨?decodes, fun s dst src offset => ⟨fun b e hwf hb he hlo hhi => ?completes, fun b hb hsrc hout => ?outside,
    fun high => ?badDst, fun hdst high => ?badSrc⟩⟩
  case decodes => rintro ⟨⟩ next rfl; exact hdecode _ _ _ _ _
  case completes => exact storesBytes_of_exec_eq hwf ((hexec dst src offset s).trans (withRegs_eq s hb he _)) hlo hhi
  case outside =>
    obtain ⟨e, he⟩ := exists_regIdx hsrc
    exact raisesFault_of_store_outside ((hexec dst src offset s).trans (withRegs_eq s hb he _)) hout
  case badDst => exact raisesFault_of_exec_eq ((hexec dst src offset s).trans (withRegs_invalid_dst s src high _))
  case badSrc => exact raisesFault_of_exec_eq ((hexec dst src offset s).trans (withRegs_invalid_src s hdst high _))

/-- Settles O42: each store-immediate is the skeleton at its width. -/
theorem storeImmediatesWriteTheirBytes : Obligations.StoreImmediatesWriteTheirBytes :=
  ⟨storeImmRule_of_skeleton (fun _ _ _ _ _ => rfl) fun _ _ _ _ => rfl,
   storeImmRule_of_skeleton (fun _ _ _ _ _ => rfl) fun _ _ _ _ => rfl,
   storeImmRule_of_skeleton (fun _ _ _ _ _ => rfl) fun _ _ _ _ => rfl,
   storeImmRule_of_skeleton (fun _ _ _ _ _ => rfl) fun _ _ _ _ => rfl⟩

/-- Settles O43: each store-register is the skeleton at its width. -/
theorem storeRegistersWriteTheirBytes : Obligations.StoreRegistersWriteTheirBytes :=
  ⟨storeRegRule_of_skeleton (fun _ _ _ _ _ => rfl) fun _ _ _ _ => rfl,
   storeRegRule_of_skeleton (fun _ _ _ _ _ => rfl) fun _ _ _ _ => rfl,
   storeRegRule_of_skeleton (fun _ _ _ _ _ => rfl) fun _ _ _ _ => rfl,
   storeRegRule_of_skeleton (fun _ _ _ _ _ => rfl) fun _ _ _ _ => rfl⟩

/-- The next slot's `imm` above the own one is their value in base 2^32 (R122). -/
theorem append_imm_eq_ofNat (h lo : Imm) : h ++ lo = BitVec.ofNat 64 (h.toNat * 2 ^ 32 + lo.toNat) := by
  have hjoin : (h ++ lo).toNat = h.toNat * 2 ^ 32 + lo.toNat := by
    rw [BitVec.toNat_append, ← Nat.shiftLeft_add_eq_or_of_lt lo.isLt, Nat.shiftLeft_eq]
  rw [← hjoin, BitVec.ofNat_toNat, BitVec.setWidth_eq]

/-- LDDW with its second slot, on a field that names a register (R122). -/
theorem lddw_writesRegister (s : State) {dst : RegField} {d : RegIdx} (hd : dst.toNat = d.val) (lo h : Imm) :
    WritesRegister (.lddw dst lo (some h)) s d (h ++ lo) (s.pc + 2#64) :=
  ⟨_, withReg_eq s hd _, setReg_reg_same s d _, rfl, fun _ hr => setReg_reg_ne s _ hr, rfl, ⟨rfl, rfl, rfl⟩, fun _ => rfl,
    rfl, rfl, rfl⟩

/-- Settles O45: the three answers of LDDW, and the step that fetches it with the slot after it. -/
theorem lddwJoinsTwoSlots : Obligations.LddwJoinsTwoSlots := by
  refine ⟨fun s dst lo hi => ⟨?completes, ?noSecondSlot, ?badDst⟩, ?steps⟩
  case completes =>
    rintro d h hd rfl
    exact append_imm_eq_ofNat h lo ▸ lddw_writesRegister s hd lo h
  case noSecondSlot =>
    rintro hdst rfl
    obtain ⟨d, hd⟩ := exists_regIdx hdst
    exact raisesFault_of_exec_eq (withReg_eq s hd _)
  case badDst => exact raisesFault_of_dst s rfl
  case steps =>
    intro s dst d imm q hrun hd hr hq himm
    have hdecode : decode (encodeSlot (.lddw dst (imm.extractLsb' 0 32) none)) (s.insnAt (s.pc.toInt + 1)) =
        .ok (.lddw dst (imm.extractLsb' 0 32) (some (imm.extractLsb' 32 32))) := by rw [hq, ← himm]; rfl
    obtain ⟨t, hexec, hreg, hpc, -⟩ := lddw_writesRegister s hd (imm.extractLsb' 0 32) (imm.extractLsb' 32 32)
    exact ⟨t, (step_of_decode hrun hr hdecode).trans hexec, hreg.trans BitVec.extractLsb'_append_extractLsb', hpc⟩

end Sys2Proof.Machine
end

section
/-! The jump rules: where JA goes, what the shared skeletons of R141 give an instruction whose byte the opcode map knows, then what each
predicate says of its two operands (spec 43_branch.md). -/

namespace Sys2Proof.Machine

variable {i j : Instr} {s : State} {op : Byte} {offset : Offset} {taken : Bool} {p : Word → Word → Prop}

/-- An instruction that only sets pc leaves everything else as it was. -/
theorem movesPc_of_exec_eq {pc' : Word} (h : exec i s = .next (s.setPc pc')) : MovesPc i s pc' :=
  ⟨_, h, rfl, fun _ => rfl, rfl, ⟨rfl, rfl, rfl⟩, fun _ => rfl, rfl, rfl, rfl⟩

/-- A jump whose predicate holds goes to its target (R141). -/
theorem movesPc_of_taken (h : exec i s = s.branch taken offset) (htaken : taken = true) :
    MovesPc i s (s.pc + offset.signExtend 64) := by
  subst htaken
  exact movesPc_of_exec_eq h

/-- A jump whose predicate fails goes to the next instruction (R141). -/
theorem movesPc_of_not_taken (h : exec i s = s.branch taken offset) (htaken : ¬ taken = true) :
    MovesPc i s (s.pc + 1#64) := by
  obtain rfl := eq_false_of_ne_true htaken
  exact movesPc_of_exec_eq h

/-- The target of a jump is the exact sum where that fits into the signed 64-bit range (R140). -/
theorem target_toInt_of_fits (hlo : -2 ^ 63 ≤ s.pc.toInt + offset.toInt) (hhi : s.pc.toInt + offset.toInt < 2 ^ 63) :
    (s.pc + offset.signExtend 64).toInt = s.pc.toInt + offset.toInt := by
  have hoffset : (offset.signExtend 64).toInt = offset.toInt := BitVec.toInt_signExtend_of_le (by decide)
  rw [← hoffset] at hlo hhi ⊢
  exact toInt_add_of_fits hlo hhi

/-- Settles O46: JA sets pc alone, and a pc outside the program has no record to fetch. -/
theorem jumpAlwaysAddsTheOffset : Obligations.JumpAlwaysAddsTheOffset := by
  refine ⟨?decodes, fun s offset => ⟨movesPc_of_exec_eq rfl, target_toInt_of_fits, fun t hexec hrun hout => ?faultsAtTarget⟩⟩
  case decodes => rintro ⟨⟩ next rfl; rfl
  case faultsAtTarget =>
    have hrun' : t.status = .running := by cases hexec; exact hrun
    have hnone := (insnAt_eq_none_iff t t.pc.toInt).mpr hout
    exact ⟨_, step_of_outside hrun' hnone, raise_faultEntered t _ _⟩

/-- The rule of an instruction over the immediate skeleton: `p` is what its predicate decides. -/
theorem jumpImmRule_of_skeleton {mk : RegField → Imm → Offset → Instr} (cond : Word → Word → Bool)
    (hdecode : ∀ dst src offset imm next, decode ⟨op, dst, src, offset, imm⟩ next = .ok (mk dst imm offset))
    (hexec : ∀ dst imm offset s, exec (mk dst imm offset) s = s.jumpImm dst imm offset cond)
    (hcond : ∀ a b, cond a b = true ↔ p a b) : JumpImmRule op mk p := by
  refine ⟨?decodes, fun s dst imm offset => ⟨fun d hd hp => ?taken, fun d hd hp => ?notTaken, fun high => ?badDst⟩⟩
  case decodes => rintro ⟨⟩ next rfl; exact hdecode _ _ _ _ _
  case taken => exact movesPc_of_taken ((hexec dst imm offset s).trans (withReg_eq s hd _)) ((hcond _ _).mpr hp)
  case notTaken => exact movesPc_of_not_taken ((hexec dst imm offset s).trans (withReg_eq s hd _)) (mt (hcond _ _).mp hp)
  case badDst => exact raisesFault_of_exec_eq ((hexec dst imm offset s).trans (withReg_invalid s high _))

/-- The rule of an instruction over the register skeleton: `p` is what its predicate decides. -/
theorem jumpRegRule_of_skeleton {mk : RegField → RegField → Offset → Instr} (cond : Word → Word → Bool)
    (hdecode : ∀ dst src offset imm next, decode ⟨op, dst, src, offset, imm⟩ next = .ok (mk dst src offset))
    (hexec : ∀ dst src offset s, exec (mk dst src offset) s = s.jumpReg dst src offset cond)
    (hcond : ∀ a b, cond a b = true ↔ p a b) : JumpRegRule op mk p := by
  refine ⟨?decodes, fun s dst src offset => ⟨fun d e hd he hp => ?taken, fun d e hd he hp => ?notTaken,
    fun high => ?badDst, fun hdst high => ?badSrc⟩⟩
  case decodes => rintro ⟨⟩ next rfl; exact hdecode _ _ _ _ _
  case taken => exact movesPc_of_taken ((hexec dst src offset s).trans (withRegs_eq s hd he _)) ((hcond _ _).mpr hp)
  case notTaken => exact movesPc_of_not_taken ((hexec dst src offset s).trans (withRegs_eq s hd he _)) (mt (hcond _ _).mp hp)
  case badDst => exact raisesFault_of_exec_eq ((hexec dst src offset s).trans (withRegs_invalid_dst s src high _))
  case badSrc => exact raisesFault_of_exec_eq ((hexec dst src offset s).trans (withRegs_invalid_src s hdst high _))

/-! What the predicates decide. Those of order compare the unsigned or the signed values by definition; those of equality and of the bit
test speak of the bits. -/

theorem condEq_iff_bits (a b : Word) : condEq a b = true ↔ ∀ k, a.getLsbD k = b.getLsbD k :=
  beq_iff_eq.trans ⟨fun h _ => h ▸ rfl, fun h => BitVec.eq_of_getLsbD_eq fun k _ => h k⟩

theorem condNe_eq_not_condEq (a b : Word) : condNe a b = !condEq a b := rfl

theorem condNe_iff_bits (a b : Word) : condNe a b = true ↔ ∃ k, a.getLsbD k ≠ b.getLsbD k := by
  rw [condNe_eq_not_condEq, Bool.not_eq_true', ← Bool.not_eq_true, condEq_iff_bits, Classical.not_forall]

/-- JSET compares the bitwise AND with zero: a bit of it that differs from zero is one set in both operands. -/
theorem condSet_iff_bits (a b : Word) : condSet a b = true ↔ ∃ k, a.getLsbD k = true ∧ b.getLsbD k = true := by
  have hne : condSet a b = condNe (a &&& b) 0#64 := rfl
  rw [hne, condNe_iff_bits]
  simp only [BitVec.getLsbD_and, BitVec.getLsbD_zero, ne_eq, Bool.not_eq_false, Bool.and_eq_true]

/-- Settles O47: both predicates read bit by bit. -/
theorem equalityJumpsCompareAllBits : Obligations.EqualityJumpsCompareAllBits :=
  ⟨jumpImmRule_of_skeleton condEq (fun _ _ _ _ _ => rfl) (fun _ _ _ _ => rfl) condEq_iff_bits,
   jumpRegRule_of_skeleton condEq (fun _ _ _ _ _ => rfl) (fun _ _ _ _ => rfl) condEq_iff_bits,
   jumpImmRule_of_skeleton condNe (fun _ _ _ _ _ => rfl) (fun _ _ _ _ => rfl) condNe_iff_bits,
   jumpRegRule_of_skeleton condNe (fun _ _ _ _ _ => rfl) (fun _ _ _ _ => rfl) condNe_iff_bits⟩

/-- Settles O48: the four predicates decide the order of the unsigned values. -/
theorem defaultOrderJumpsAreUnsigned : Obligations.DefaultOrderJumpsAreUnsigned :=
  ⟨jumpImmRule_of_skeleton condGt (fun _ _ _ _ _ => rfl) (fun _ _ _ _ => rfl) fun _ _ => decide_eq_true_iff,
   jumpRegRule_of_skeleton condGt (fun _ _ _ _ _ => rfl) (fun _ _ _ _ => rfl) fun _ _ => decide_eq_true_iff,
   jumpImmRule_of_skeleton condGe (fun _ _ _ _ _ => rfl) (fun _ _ _ _ => rfl) fun _ _ => decide_eq_true_iff,
   jumpRegRule_of_skeleton condGe (fun _ _ _ _ _ => rfl) (fun _ _ _ _ => rfl) fun _ _ => decide_eq_true_iff,
   jumpImmRule_of_skeleton condLt (fun _ _ _ _ _ => rfl) (fun _ _ _ _ => rfl) fun _ _ => decide_eq_true_iff,
   jumpRegRule_of_skeleton condLt (fun _ _ _ _ _ => rfl) (fun _ _ _ _ => rfl) fun _ _ => decide_eq_true_iff,
   jumpImmRule_of_skeleton condLe (fun _ _ _ _ _ => rfl) (fun _ _ _ _ => rfl) fun _ _ => decide_eq_true_iff,
   jumpRegRule_of_skeleton condLe (fun _ _ _ _ _ => rfl) (fun _ _ _ _ => rfl) fun _ _ => decide_eq_true_iff⟩

/-- Settles O49: the four predicates decide the order of the signed values. -/
theorem signedOrderJumpsAreSigned : Obligations.SignedOrderJumpsAreSigned :=
  ⟨jumpImmRule_of_skeleton condSgt (fun _ _ _ _ _ => rfl) (fun _ _ _ _ => rfl) fun _ _ => decide_eq_true_iff,
   jumpRegRule_of_skeleton condSgt (fun _ _ _ _ _ => rfl) (fun _ _ _ _ => rfl) fun _ _ => decide_eq_true_iff,
   jumpImmRule_of_skeleton condSge (fun _ _ _ _ _ => rfl) (fun _ _ _ _ => rfl) fun _ _ => decide_eq_true_iff,
   jumpRegRule_of_skeleton condSge (fun _ _ _ _ _ => rfl) (fun _ _ _ _ => rfl) fun _ _ => decide_eq_true_iff,
   jumpImmRule_of_skeleton condSlt (fun _ _ _ _ _ => rfl) (fun _ _ _ _ => rfl) fun _ _ => decide_eq_true_iff,
   jumpRegRule_of_skeleton condSlt (fun _ _ _ _ _ => rfl) (fun _ _ _ _ => rfl) fun _ _ => decide_eq_true_iff,
   jumpImmRule_of_skeleton condSle (fun _ _ _ _ _ => rfl) (fun _ _ _ _ => rfl) fun _ _ => decide_eq_true_iff,
   jumpRegRule_of_skeleton condSle (fun _ _ _ _ _ => rfl) (fun _ _ _ _ => rfl) fun _ _ => decide_eq_true_iff⟩

/-- Settles O50: a non-zero AND has a bit set in both operands. -/
theorem bitTestJumpsFindACommonBit : Obligations.BitTestJumpsFindACommonBit :=
  ⟨jumpImmRule_of_skeleton condSet (fun _ _ _ _ _ => rfl) (fun _ _ _ _ => rfl) condSet_iff_bits,
   jumpRegRule_of_skeleton condSet (fun _ _ _ _ _ => rfl) (fun _ _ _ _ => rfl) condSet_iff_bits⟩

/-! The complementary pairs, as R141 lists the predicates. -/

theorem condLe_eq_not_condGt (a b : Word) : condLe a b = !condGt a b := by simp [condLe, condGt, ← decide_not]

theorem condLt_eq_not_condGe (a b : Word) : condLt a b = !condGe a b := by simp [condLt, condGe, ← decide_not]

theorem condSle_eq_not_condSgt (a b : Word) : condSle a b = !condSgt a b := by simp [condSle, condSgt, ← decide_not]

theorem condSlt_eq_not_condSge (a b : Word) : condSlt a b = !condSge a b := by simp [condSlt, condSge, ← decide_not]

/-- Two register jumps with opposite predicates go opposite ways on the same operands. -/
theorem oneOfTwo_taken {dst src : RegField} {cond cond' : Word → Word → Bool} (hdst : dst.toNat ≤ 10) (hsrc : src.toNat ≤ 10)
    (hi : exec i s = s.jumpReg dst src offset cond) (hj : exec j s = s.jumpReg dst src offset cond')
    (hnot : ∀ a b, cond' a b = !cond a b) :
    (MovesPc i s (s.pc + offset.signExtend 64) ∧ MovesPc j s (s.pc + 1#64)) ∨
    (MovesPc i s (s.pc + 1#64) ∧ MovesPc j s (s.pc + offset.signExtend 64)) := by
  obtain ⟨d, hd⟩ := exists_regIdx hdst
  obtain ⟨e, he⟩ := exists_regIdx hsrc
  have hi' := hi.trans (withRegs_eq s hd he _)
  have hj' := hj.trans (withRegs_eq s hd he _)
  cases hc : cond (s.reg d) (s.reg e) with
  | true => exact .inl ⟨movesPc_of_taken hi' hc, movesPc_of_not_taken hj' (by simp [hnot, hc])⟩
  | false => exact .inr ⟨movesPc_of_not_taken hi' (by simp [hc]), movesPc_of_taken hj' (by simp [hnot, hc])⟩

/-- Settles O51: the second predicate of each pair negates the first. -/
theorem complementaryJumpsTakeOneOfTwo : Obligations.ComplementaryJumpsTakeOneOfTwo := by
  intro s dst src offset hdst hsrc i j hpair
  simp only [List.mem_cons, Prod.mk.injEq, List.not_mem_nil, or_false] at hpair
  rcases hpair with ⟨rfl, rfl⟩ | ⟨rfl, rfl⟩ | ⟨rfl, rfl⟩ | ⟨rfl, rfl⟩ | ⟨rfl, rfl⟩
  · exact oneOfTwo_taken hdst hsrc rfl rfl condNe_eq_not_condEq
  · exact oneOfTwo_taken hdst hsrc rfl rfl condLe_eq_not_condGt
  · exact oneOfTwo_taken hdst hsrc rfl rfl condLt_eq_not_condGe
  · exact oneOfTwo_taken hdst hsrc rfl rfl condSle_eq_not_condSgt
  · exact oneOfTwo_taken hdst hsrc rfl rfl condSlt_eq_not_condSge

end Sys2Proof.Machine
end

section
/-! CALL, EXIT and the bytes that are no instruction, then the one use of LINK_REG: the execution of every instruction but CALL commutes
with putting another register there (spec 44_call_exit.md R170 to R172, 92_eei_decisions.md D8). -/

namespace Sys2Proof.Machine

variable {s : State} {l : RegIdx}

/-- No step follows a fault entry (R70, log entry 3). -/
theorem step_raise (s : State) (kind : FaultKind) (info : Word) : step (s.raise kind info) = .fault .notRunning :=
  step_of_not_running (by simp)

/-- No step follows an ended run (R70, log entry 3). -/
theorem step_terminate (s : State) : step s.terminate = .fault .notRunning :=
  step_of_not_running (by simp)

/-- Settles O10: the fetch raises the fault of the byte, and the fault ends the run. -/
theorem unknownOpcodeFaults : Obligations.UnknownOpcodeFaults :=
  fun s _ hrun hr hop => ⟨_, step_of_unknown hrun hr hop, raise_faultEntered s _ _, step_raise s _ _⟩

/-- CALL writes the return index to the register LINK_REG names, whichever it is, and goes to its target (R170). -/
theorem call_writesRegister (s : State) (offset : Offset) :
    WritesRegister (.call offset) s s.linkReg (s.pc + 1#64) (s.pc + offset.signExtend 64) :=
  ⟨_, rfl, setReg_reg_same s s.linkReg _, rfl, fun _ hr => setReg_reg_ne s _ hr, rfl, ⟨rfl, rfl, rfl⟩, fun _ => rfl, rfl, rfl,
    rfl⟩

/-- Settles O52: CALL's arm of the opcode map reads the offset alone, and its execution writes the link register. -/
theorem callLinksAndJumps : Obligations.CallLinksAndJumps := by
  refine ⟨?decodes, ?completes⟩
  case decodes => rintro ⟨⟩ next rfl; rfl
  case completes => rintro s offset l rfl; exact call_writesRegister s offset

/-- Settles O53: EXIT answers the terminated state, from which no step is taken. -/
theorem exitOnlyTerminates : Obligations.ExitOnlyTerminates :=
  ⟨fun _ next hop => decode_of_exit_opcode next hop,
   fun s => ⟨s.terminate, rfl, rfl, rfl, fun _ => rfl, fun _ => rfl, ⟨rfl, rfl, rfl⟩, ⟨rfl, rfl, rfl⟩, step_terminate s⟩⟩

/-- The state with another register for CALL to write. -/
def State.setLinkReg (s : State) (l : RegIdx) : State := { s with linkReg := l }

/-- The answer with another register for CALL to write in the next state. -/
def relink (l : RegIdx) : Result → Result
  | .next t => .next (t.setLinkReg l)
  | .fault r => .fault r
  | .refused r => .refused r

/-! The shared operations read every part of the state but LINK_REG. Where an operation goes on with a continuation, what holds of the
continuations holds of the operation. -/

theorem withReg_setLinkReg (f : RegField) {k k' : RegIdx → Result} (h : ∀ d, k' d = relink l (k d)) :
    (s.setLinkReg l).withReg f k' = relink l (s.withReg f k) := by
  unfold State.withReg
  split
  · exact h _
  · rfl

theorem withRegs_setLinkReg (f g : RegField) {k k' : RegIdx → RegIdx → Result} (h : ∀ d e, k' d e = relink l (k d e)) :
    (s.setLinkReg l).withRegs f g k' = relink l (s.withRegs f g k) :=
  withReg_setLinkReg f fun d => withReg_setLinkReg g (h d)

theorem finish_setLinkReg (d : RegIdx) (v : Word) : (s.setLinkReg l).finish d v = relink l (s.finish d v) := rfl

theorem divide_setLinkReg (d : RegIdx) (b : Word) (f : Word → Word → Word) :
    (s.setLinkReg l).divide d b f = relink l (s.divide d b f) := by
  unfold State.divide
  split <;> rfl

theorem branch_setLinkReg (taken : Bool) (offset : Offset) :
    (s.setLinkReg l).branch taken offset = relink l (s.branch taken offset) := by
  cases taken <;> rfl

theorem inBounds_setLinkReg (ea : Int) (n : Nat) : (s.setLinkReg l).inBounds ea n = s.inBounds ea n := rfl

theorem memRead_setLinkReg (ea : Int) (n : Nat) {k k' : BitVec (8 * n) → Result} (h : ∀ v, k' v = relink l (k v)) :
    (s.setLinkReg l).memRead ea n k' = relink l (s.memRead ea n k) := by
  unfold State.memRead
  rw [inBounds_setLinkReg]
  split
  · exact h _
  · rfl

theorem memWrite_setLinkReg (ea : Int) (n : Nat) (v : BitVec (8 * n)) {k : State → Result}
    (h : ∀ t, k (t.setLinkReg l) = relink l (k t)) : (s.setLinkReg l).memWrite ea n v k = relink l (s.memWrite ea n v k) := by
  unfold State.memWrite
  rw [inBounds_setLinkReg]
  split
  · exact h (s.setMem (s.mem.writeBytes ea.toNat n v))
  · rfl

theorem store_setLinkReg (b : RegIdx) (offset : Offset) (n : Nat) (v : BitVec (8 * n)) :
    (s.setLinkReg l).store b offset n v = relink l (s.store b offset n v) :=
  memWrite_setLinkReg (s.effectiveAddress b offset) n v fun _ => rfl

theorem load_setLinkReg (dst src : RegField) (offset : Offset) (n : Nat) (widen : BitVec (8 * n) → Word) :
    (s.setLinkReg l).load dst src offset n widen = relink l (s.load dst src offset n widen) :=
  withRegs_setLinkReg dst src fun d b => memRead_setLinkReg (s.effectiveAddress b offset) n fun v => finish_setLinkReg d (widen v)

theorem lddw_setLinkReg (dst : RegField) (lo : Imm) (hi : Option Imm) :
    execLddw dst lo hi (s.setLinkReg l) = relink l (execLddw dst lo hi s) :=
  withReg_setLinkReg dst fun _ => by cases hi <;> rfl

/-- Every instruction but CALL does the same whatever LINK_REG is, and passes it on. -/
theorem exec_setLinkReg (i : Instr) (s : State) (l : RegIdx) (hcall : ∀ o, i ≠ .call o) :
    exec i (s.setLinkReg l) = relink l (exec i s) := by
  cases i with
  | call o => exact absurd rfl (hcall o)
  | ja _ | exit => rfl
  | lddw dst lo hi => exact lddw_setLinkReg dst lo hi
  | ldxw f g o | ldxh f g o | ldxb f g o | ldxdw f g o => exact load_setLinkReg f g o _ _
  | stw f o _ | sth f o _ | stb f o _ | stdw f o _ => exact withReg_setLinkReg f fun b => store_setLinkReg b o _ _
  | stxw f g o | stxh f g o | stxb f g o | stxdw f g o =>
    exact withRegs_setLinkReg f g fun b e => store_setLinkReg b o _ ((s.reg e).setWidth _)
  | divImm f _ | modImm f _ => exact withReg_setLinkReg f fun d => divide_setLinkReg d _ _
  | divReg f g | modReg f g => exact withRegs_setLinkReg f g fun d e => divide_setLinkReg d (s.reg e) _
  | jeqImm f _ _ | jneImm f _ _ | jsetImm f _ _ | jgtImm f _ _ | jgeImm f _ _ | jltImm f _ _ | jleImm f _ _ | jsgtImm f _ _
  | jsgeImm f _ _ | jsltImm f _ _ | jsleImm f _ _ => exact withReg_setLinkReg f fun _ => branch_setLinkReg _ _
  | jeqReg f g _ | jneReg f g _ | jsetReg f g _ | jgtReg f g _ | jgeReg f g _ | jltReg f g _ | jleReg f g _ | jsgtReg f g _
  | jsgeReg f g _ | jsltReg f g _ | jsleReg f g _ => exact withRegs_setLinkReg f g fun _ _ => branch_setLinkReg _ _
  | addImm f _ | subImm f _ | mulImm f _ | orImm f _ | andImm f _ | xorImm f _ | lshImm f _ | rshImm f _ | arshImm f _
  | movImm f _ | negImm f | negReg f => exact withReg_setLinkReg f fun d => finish_setLinkReg d _
  | addReg f g | subReg f g | mulReg f g | orReg f g | andReg f g | xorReg f g | lshReg f g | rshReg f g | arshReg f g
  | movReg f g => exact withRegs_setLinkReg f g fun d _ => finish_setLinkReg d _

/-- Settles O26: the instruction answers a next state, and with another LINK_REG the same one but for LINK_REG. -/
theorem linkRegMattersOnlyToCall : Obligations.LinkRegMattersOnlyToCall := by
  intro i s l hcall
  obtain ⟨t, hexec, -⟩ := exec_effect i s
  exact ⟨t, hexec, (exec_setLinkReg i s l hcall).trans (congrArg (relink l) hexec)⟩

end Sys2Proof.Machine
end

section
/-! Faults: an instruction or a step that leads to FAULTED ends in the fault entry of R186, with a cause that R180 names, and an input
that is no whole number of slots ends in MalformedInput at launch (spec 60_exceptions.md R180, R181, R185, R186). -/

namespace Sys2Proof.Machine

variable {i : Instr} {s t : State}

/-- The one way an instruction leads to FAULTED is by a fault entry: one that completes keeps the status or ends the run. -/
theorem Effect.eq_raise_of_faulted (h : Effect i s t) (hs : s.status ≠ .faulted) (ht : t.status = .faulted) :
    ∃ kind info, FaultCause i kind info ∧ t = s.raise kind info := by
  rcases h.raised_or_completed with hraised | ⟨-, -, hkept | hended⟩
  · exact hraised
  · exact absurd (hkept.symm.trans ht) hs
  · cases hended.symm.trans ht

/-- A step that leads to FAULTED is a fault entry, taken by the fetch or by the instruction, with a kind and an information of R180. -/
theorem step_eq_raise_of_faulted (h : step s = .next t) (ht : t.status = .faulted) :
    ∃ kind info, InfoFits kind info ∧ t = s.raise kind info := by
  obtain ⟨hrun, ⟨-, hout⟩ | ⟨r, opcode, -, -, hunknown⟩ | ⟨r, i, -, -, -, hexec⟩⟩ := step_cases h
  · exact ⟨_, _, infoFits_zero (by decide) (by decide) (by decide) (by decide), hout⟩
  · exact ⟨_, _, infoFits_unknownOpcode opcode, hunknown⟩
  · obtain ⟨kind, info, why, hraise⟩ := (effect_of_exec hexec).eq_raise_of_faulted (by simp [hrun]) ht
    exact ⟨kind, info, why.infoFits, hraise⟩

/-- Settles O18: the step is a fault entry, which writes status and descriptor alone and which no step follows. -/
theorem faultsArePrecise : Obligations.FaultsArePrecise := by
  intro s t _ hstep ht
  obtain ⟨kind, info, hfits, rfl⟩ := step_eq_raise_of_faulted hstep ht
  obtain ⟨-, hkind, hindex, -, hpc, hregs, hmem, hsame⟩ := raise_faultEntered s kind info
  exact ⟨hregs, hmem, hpc, hsame, hindex, hkind ▸ hfits.raised, hkind ▸ hfits.notAtLaunch, step_raise s kind info⟩

/-- Settles O19: one disjunct for each cause an instruction has to raise a fault. -/
theorem eachFaultKindHasItsRaisers : Obligations.EachFaultKindHasItsRaisers := by
  intro i s t hexec hs ht
  obtain ⟨kind, info, why, rfl⟩ := (effect_of_exec hexec).eq_raise_of_faulted hs ht
  cases why with
  | zeroDivisor divides => exact .inl ⟨rfl, divides, rfl⟩
  | outOfBounds access => exact .inr (.inl ⟨rfl, access, rfl⟩)
  | noSecondSlot truncated => exact .inr (.inr (.inl ⟨rfl, truncated, rfl⟩))
  | badRegister used high => exact .inr (.inr (.inr ⟨rfl, _, used, high, rfl⟩))

/-- A rejected input leaves MalformedInput with the index its partial slot would have had, and no program (R54, R181). -/
theorem launch_of_partial_rejected (linkReg : RegIdx) {bytes : List Byte} (memCap : Nat) (h : bytes.length % 8 ≠ 0) :
    let s := launch linkReg bytes memCap
    s.status = .faulted ∧ s.faultKind = .malformedInput ∧ s.faultIndex = BitVec.ofNat 64 (bytes.length / 8) ∧
    s.faultInfo = 0#64 ∧ s.prog = [] := by
  rw [launch_of_partial linkReg memCap h]
  exact ⟨rfl, rfl, rfl, rfl, rfl⟩

/-- Settles O27: `raise` is the fault entry, and a launch that rejects its input reports floor(L / 8). -/
theorem raiseIsTheFaultEntry : Obligations.RaiseIsTheFaultEntry := by
  refine ⟨raise_faultEntered, fun linkReg bytes memCap h => ?_⟩
  obtain ⟨hstatus, hkind, hindex, hinfo, -⟩ := launch_of_partial_rejected linkReg memCap h
  exact ⟨hstatus, hkind, hindex, hinfo⟩

/-- Settles O56: the rejected launch is FAULTED, and a run from a state that is not RUNNING stays there. -/
theorem malformedInputRunsNothing : Obligations.MalformedInputRunsNothing := by
  intro linkReg bytes memCap k h
  obtain ⟨hstatus, hkind, hindex, hinfo, hprog⟩ := launch_of_partial_rejected linkReg memCap h
  exact ⟨hstatus, hkind, hindex, hinfo, hprog, runSteps_of_not_running (by simp [hstatus]) k⟩

end Sys2Proof.Machine
end

section
/-! The launch meets the invariant: memory is empty, pc is 0, the program is no longer than the spec's bound allows, and the fault
descriptor is clear or holds MalformedInput over an empty program (spec 70_reset_and_hazards.md R200, 60_exceptions.md R181). -/

namespace Sys2Proof.Machine

variable (linkReg : RegIdx) {bytes : List Byte} (memCap : Nat)

/-- An input within the bound of R5 launches a program within it: a whole one has a record per eight bytes, any other none. -/
theorem launch_prog_length_lt (h : bytes.length < 8 * 2 ^ 62) :
    (launch linkReg bytes memCap).prog.length < Config.sizeBound := by
  by_cases hwhole : bytes.length % 8 = 0
  · obtain ⟨hslots, -⟩ := programStoreIsTheInputInOrder bytes (bytes.length / 8) (by omega)
    calc (launch linkReg bytes memCap).prog.length
      _ = (slots bytes).length := by rw [launch_of_whole linkReg memCap hwhole]
      _ = bytes.length / 8 := hslots
      _ < 2 ^ 62 := Nat.div_lt_of_lt_mul h
  · obtain ⟨-, -, -, -, hprog⟩ := launch_of_partial_rejected linkReg memCap hwhole
    rw [hprog]
    exact Nat.two_pow_pos 62

/-- MalformedInput with information 0 is a right descriptor over an empty program with pc at 0 (R180, R181). -/
theorem descriptorOk_of_malformedInput {s : State} (hs : s.status = .faulted) (hkind : s.faultKind = .malformedInput)
    (hinfo : s.faultInfo = 0#64) (hprog : s.prog = []) (hpc : s.pc = 0#64) : s.DescriptorOk := by
  refine ⟨fun h => absurd hs h, fun _ => ?_, fun _ h => absurd hkind h, fun _ => ⟨hprog, hpc⟩, ?_, ?_, fun _ _ => hinfo⟩ <;>
    simp [hkind]

/-- Accepted or rejected, an input leaves a descriptor that says what its kind must say. -/
theorem launch_descriptorOk (bytes : List Byte) : (launch linkReg bytes memCap).DescriptorOk := by
  by_cases hwhole : bytes.length % 8 = 0
  · rw [launch_of_whole linkReg memCap hwhole]
    exact descriptorOk_of_noFault (by decide : RunStatus.running ≠ .faulted) rfl rfl rfl
  · obtain ⟨hstatus, hkind, -, hinfo, hprog⟩ := launch_of_partial_rejected linkReg memCap hwhole
    exact descriptorOk_of_malformedInput hstatus hkind hinfo hprog (launch_pc linkReg bytes memCap)

/-- Settles O14: the empty memory is canonical and inside any MEM_CAP, and index 0 is near every program. -/
theorem launchMeetsTheInvariant : Obligations.LaunchMeetsTheInvariant := by
  intro linkReg bytes memCap hbytes hcap
  obtain ⟨-, hpc, hmem, hmemCap, -⟩ := launch_common linkReg bytes memCap
  have hzero : (launch linkReg bytes memCap).pc.toInt = 0 := by rw [hpc]; rfl
  exact ⟨by rw [hmem]; rfl, by simp [hmem], Nat.le_trans (Nat.le_of_eq hmemCap) hcap,
    launch_prog_length_lt linkReg memCap hbytes, by omega, by omega, launch_descriptorOk linkReg memCap bytes⟩

end Sys2Proof.Machine
end

section
/-! Reading turned round: an instruction's opcode byte and used fields are all it takes to decode to it. The fields that make no
difference, the set of bytes that decode, the round trip through the bytes and the spec's examples follow (spec 30_encoding.md R51
to R64). -/

namespace Sys2Proof

variable {r : Record} {next : Option Record} {i : Instr}

/-- The record with the instruction's opcode byte and used fields, and `r`'s fields where the instruction uses none. -/
def Instr.overlay (i : Instr) (r : Record) : Record where
  opcode := opcodeOf i
  dst := i.dst?.getD r.dst
  src := i.src?.getD r.src
  offset := i.offset?.getD r.offset
  imm := i.imm?.getD r.imm

/-- Whatever stands in the unused fields, such a record decodes to the instruction: each constructor takes its own arm of the opcode map,
and LDDW alone needs the next record's `imm` to be the one it holds (R58, R61, R62). -/
theorem decode_overlay (i : Instr) (r : Record) {next : Option Record}
    (hnext : i.nextImm? = if opcodeOf i = 0x18#8 then next.map Record.imm else none) : decode (i.overlay r) next = .ok i := by
  cases i
  case lddw dst lo hi =>
    obtain rfl : hi = next.map Record.imm := hnext
    rfl
  all_goals rfl

/-- A field that holds `v` wherever it is used reads as `v` where `v` fills it in. -/
theorem getD_of_eq_map_const {α : Type} {field : Option α} {v : α} (h : field = field.map fun _ => v) : field.getD v = v := by
  cases field with
  | none => rfl
  | some x => exact Option.some.inj h

/-- The converse of `readFrom_of_decode`: a record that holds what an instruction reads is its own overlay, so decodes to it. -/
theorem decode_of_readFrom (h : ReadFrom r next i) : decode r next = .ok i := by
  obtain ⟨hop, hdst, hsrc, hoffset, himm, hnext⟩ := h
  have hself : i.overlay r = r := by
    rw [Instr.overlay, hop, getD_of_eq_map_const hdst, getD_of_eq_map_const hsrc, getD_of_eq_map_const hoffset,
      getD_of_eq_map_const himm]
  rw [← hself]
  exact decode_overlay i r hnext

/-- A value that agrees with `v` wherever the field is used holds the field as `v` does. -/
theorem eq_map_const_of_agree {α : Type} {field : Option α} {v w : α} (h : field = field.map fun _ => v)
    (hagree : field ≠ none → w = v) : field = field.map fun _ => w := by
  cases field with
  | none => rfl
  | some x => rw [hagree (by simp)]; exact h

/-- Settles O3: agreement on the used fields carries `ReadFrom` from one record to the other. -/
theorem unusedFieldsAreIgnored : Obligations.UnusedFieldsAreIgnored := by
  intro r q next next' i h hqop hqdst hqsrc hqoffset hqimm hqnext
  obtain ⟨hop, hdst, hsrc, hoffset, himm, hnext⟩ := readFrom_of_decode h
  exact decode_of_readFrom ⟨hop.trans hqop.symm, eq_map_const_of_agree hdst hqdst, eq_map_const_of_agree hsrc hqsrc,
    eq_map_const_of_agree hoffset hqoffset, eq_map_const_of_agree himm hqimm, hqnext ▸ hnext⟩

/-- Settles O4: the two answers of `decode_cases` exclude each other. -/
theorem exactlyTheKnownOpcodesDecode : Obligations.ExactlyTheKnownOpcodesDecode := by
  refine ⟨rfl, by decide, fun r next => ⟨⟨decode_of_known next, fun ⟨i, hi⟩ => ?_⟩, decode_of_unknown next⟩⟩
  rcases decode_cases r next with ⟨hknown, -⟩ | ⟨-, herr⟩
  · exact hknown
  · cases hi.symm.trans herr

/-- The eight bytes of a slot read back as its record: each field is put together from the parts it was cut into (R51). -/
theorem slots_bytesOfSlot (r : Record) (rest : List Byte) : slots (bytesOfSlot r ++ rest) = r :: slots rest := by
  obtain ⟨opcode, dst, src, offset, imm⟩ := r
  have hdst : (src ++ dst).extractLsb' 0 4 = dst := BitVec.extractLsb'_append_eq_right
  have hsrc : (src ++ dst).extractLsb' 4 4 = src := BitVec.extractLsb'_append_eq_left
  have hoffset : offset.extractLsb' 8 8 ++ offset.extractLsb' 0 8 = offset := BitVec.extractLsb'_append_extractLsb'
  have himm : imm.extractLsb' 24 8 ++ imm.extractLsb' 16 8 ++ imm.extractLsb' 8 8 ++ imm.extractLsb' 0 8 = imm := by
    rw [BitVec.extractLsb'_append_extractLsb'_eq_extractLsb' (rfl : 24 = 16 + 8),
      BitVec.extractLsb'_append_extractLsb'_eq_extractLsb' (rfl : 16 = 8 + 8)]
    exact BitVec.extractLsb'_append_extractLsb'
  simp only [bytesOfSlot, List.cons_append, List.nil_append, slots, slotOfBytes, hdst, hsrc, hoffset, himm]

/-- The bytes of an instruction read back as its slot, then as its second slot where it has one, then as what follows. -/
theorem slots_encode (i : Instr) (tail : List Byte) :
    slots (encode i ++ tail) = encodeSlot i :: ((i.nextImm?.map secondSlot).toList ++ slots tail) := by
  cases hnext : i.nextImm? <;> simp [encode, encodeSlots, hnext, slots_bytesOfSlot]

/-- Behind an instruction that is not truncated stands the second immediate it holds, whatever bytes follow: only LDDW has one. -/
theorem nextImm_eq_behind (h : i.truncated = false) (rest : List Record) :
    i.nextImm? = if opcodeOf i = 0x18#8 then ((i.nextImm?.map secondSlot).toList ++ rest).head?.map Record.imm else none := by
  cases i
  case lddw dst lo hi =>
    cases hi with
    | none => cases h
    | some x => rfl
  all_goals rfl

/-- The encoder's bytes decode to the instruction, its register fields naming registers or not. -/
theorem decodeBytes_encode (tail : List Byte) (h : i.truncated = false) : decodeBytes (encode i ++ tail) = .ok i := by
  have hslot : encodeSlot i = i.overlay (secondSlot 0) := rfl
  have hdecode := decode_overlay i (secondSlot 0) (nextImm_eq_behind h (slots tail))
  simp only [decodeBytes, slots_encode, hslot, hdecode, Except.mapError]

theorem not_truncated_of_wellFormed (h : i.wellFormed = true) : i.truncated = false := by
  simp only [Instr.wellFormed, Bool.and_eq_true, Bool.not_eq_true'] at h
  obtain ⟨-, htruncated⟩ := h
  exact htruncated

/-- Settles O1: of well-formedness the round trip needs only that LDDW has its second slot. -/
theorem decodeOfEncodeIsTheInstruction : Obligations.DecodeOfEncodeIsTheInstruction :=
  fun _ tail h => decodeBytes_encode tail (not_truncated_of_wellFormed h)

/-- Bytes that are an instruction's encoding, with nothing behind them, decode to it. -/
theorem decodeBytes_of_eq_encode {bytes : List Byte} (hbytes : encode i = bytes) (h : i.truncated = false) :
    (decodeBytes bytes).toOption = some i := by
  rw [← hbytes, ← List.append_nil (encode i), decodeBytes_encode [] h]
  rfl

/-- Settles O6: each example of the spec is the encoder's own output for its instruction. -/
theorem specExampleWordsDecode : Obligations.SpecExampleWordsDecode := by
  and_intros <;> exact decodeBytes_of_eq_encode (by decide) rfl

end Sys2Proof
end

section
/-! Running and reset: a running machine always has a next state, and the reset state meets the invariant (spec
10_state.md section 8; 95_test_vectors.md section 4). -/

namespace Sys2Proof.Machine

/-- A fetch goes on with an instruction or takes a fault; the first always executes, so a running machine is never stuck. -/
theorem exists_next_of_running {s : State} (h : s.status = .running) : ∃ t, step s = .next t := by
  rw [step_of_running h]
  cases fetch s with
  | ok i =>
    obtain ⟨t, hexec, -⟩ := exec_effect i s
    exact ⟨t, hexec⟩
  | error t => exact ⟨t, rfl⟩

/-- Settles O11: a running state has a next one, and only a running state steps. -/
theorem runningStateAlwaysSteps : Obligations.RunningStateAlwaysSteps := by
  refine fun s => ⟨fun ⟨t, hstep⟩ => ?_, exists_next_of_running⟩
  obtain ⟨hrun, -⟩ := step_cases hstep
  exact hrun

/-- Settles O15: reset is the launch of the empty input with the default parameters. -/
theorem resetMeetsTheInvariant : Obligations.ResetMeetsTheInvariant :=
  launchMeetsTheInvariant Config.resetLinkReg [] Config.defaultMemCap (by decide) (by decide)

end Sys2Proof.Machine
end
